-- ==== Sys2Proof/Word.lean ====
section
/-! DEFINITION. The widths of the machine: the byte (XLEN = 8) and the 16-bit address (PCLEN = ALEN = 16) of
spec/00_scope.md R5. -/

namespace Sys2Proof

/-- A byte, "8 bits and … always read as the unsigned integer 0 to 255" (R7): a general register, an immediate,
an opcode, a register-index operand, a cell of either store. -/
abbrev Byte := BitVec 8

/-- A 16-bit address into one of the two stores; the program counter is one (R5: PCLEN, ALEN). -/
abbrev Addr := BitVec 16

end Sys2Proof
end

