-- ==== Sys2Proof/Syntax.lean ====
section
/-! DEFINITION. The instructions as syntax: the 26 rows of spec/30_encoding.md R66 (spec/opcode_table.json), their
formats (R61), the general registers (R21) and the assembler's mnemonics and operand classes (R79, R80). -/

namespace Sys2Proof

/-- The general registers, "A=0, B=1, C=2" (R21); A is the accumulator. -/
inductive Reg where
  | a
  | b
  | c
deriving DecidableEq, Repr

/-- The six instruction formats of R61. -/
inductive Format where
  /-- One byte: the opcode. -/
  | f0
  /-- Two bytes: the opcode and an 8-bit immediate. -/
  | f1i
  /-- Two bytes: the opcode and a register index. -/
  | f1r
  /-- Three bytes: the opcode and a 16-bit address, high byte first. -/
  | f2a
  /-- Three bytes: the opcode, the destination index and the source index. -/
  | f2rr
  /-- Three bytes: the opcode, the destination index and an 8-bit immediate. -/
  | f2ri
deriving DecidableEq, Repr

/-- The rows of the opcode map (R66), without their operands: what the first byte alone selects (R67). -/
inductive Opcode where
  | nop
  | ldaImm
  | ldaReg
  | sta
  | ldbImm
  | ldbReg
  | stb
  | ldcImm
  | ldcReg
  | stc
  | ldaAddr
  | addRr
  | subRr
  | addRi
  | subRi
  | andRr
  | orRr
  | xorRr
  | notR
  | jmp
  | jmpZ
  | jmpNz
  | jmpC
  | jmpNc
  | cp
  | fill
deriving DecidableEq, Repr

/-- The instructions: one constructor per row of the opcode table, with the operands its format carries. A register
operand is the index BYTE as encoded: "the whole byte is the index; no bits are ignored", and 3 to 255 are checked at
execution, not by the decoder (R64). -/
inductive Instr where
  /-- NOP, 0x00: stops the run (R107). -/
  | nop
  /-- LDA.imm, 0x01 (R120). -/
  | ldaImm (imm : Byte)
  /-- LDA.reg, 0x02 (R123). -/
  | ldaReg (src : Byte)
  /-- STA, 0x03 (R126). -/
  | sta (addr : Addr)
  /-- LDB.imm, 0x04 (R121). -/
  | ldbImm (imm : Byte)
  /-- LDB.reg, 0x05 (R124). -/
  | ldbReg (src : Byte)
  /-- STB, 0x06 (R127). -/
  | stb (addr : Addr)
  /-- LDC.imm, 0x07 (R122). -/
  | ldcImm (imm : Byte)
  /-- LDC.reg, 0x08 (R125). -/
  | ldcReg (src : Byte)
  /-- STC, 0x09 (R128). -/
  | stc (addr : Addr)
  /-- LDA.addr, 0x0A (R129). -/
  | ldaAddr (addr : Addr)
  /-- ADD.rr, 0x0B (R142). -/
  | addRr (dst src : Byte)
  /-- SUB.rr, 0x0C (R143). -/
  | subRr (dst src : Byte)
  /-- ADD.ri, 0x0D (R144). -/
  | addRi (dst imm : Byte)
  /-- SUB.ri, 0x0E (R145). -/
  | subRi (dst imm : Byte)
  /-- AND, 0x0F (R161). -/
  | andRr (dst src : Byte)
  /-- OR, 0x10 (R162). -/
  | orRr (dst src : Byte)
  /-- XOR, 0x11 (R163). -/
  | xorRr (dst src : Byte)
  /-- NOT, 0x12 (R164). -/
  | notR (dst : Byte)
  /-- JMP, 0x13 (R181). -/
  | jmp (target : Addr)
  /-- JMP.Z, 0x14 (R182). -/
  | jmpZ (target : Addr)
  /-- JMP.NZ, 0x15 (R183). -/
  | jmpNz (target : Addr)
  /-- JMP.C, 0x16 (R184). -/
  | jmpC (target : Addr)
  /-- JMP.NC, 0x17 (R185). -/
  | jmpNc (target : Addr)
  /-- CP, 0x18 (R200). -/
  | cp (imm : Byte)
  /-- FILL, 0xFF (R202): the only no-operation. -/
  | fill
deriving DecidableEq, Repr

/-- The row of R66 an instruction belongs to. -/
def Instr.opcode : Instr → Opcode
  | .nop => .nop
  | .ldaImm _ => .ldaImm
  | .ldaReg _ => .ldaReg
  | .sta _ => .sta
  | .ldbImm _ => .ldbImm
  | .ldbReg _ => .ldbReg
  | .stb _ => .stb
  | .ldcImm _ => .ldcImm
  | .ldcReg _ => .ldcReg
  | .stc _ => .stc
  | .ldaAddr _ => .ldaAddr
  | .addRr _ _ => .addRr
  | .subRr _ _ => .subRr
  | .addRi _ _ => .addRi
  | .subRi _ _ => .subRi
  | .andRr _ _ => .andRr
  | .orRr _ _ => .orRr
  | .xorRr _ _ => .xorRr
  | .notR _ => .notR
  | .jmp _ => .jmp
  | .jmpZ _ => .jmpZ
  | .jmpNz _ => .jmpNz
  | .jmpC _ => .jmpC
  | .jmpNc _ => .jmpNc
  | .cp _ => .cp
  | .fill => .fill

/-- The assembler's mnemonics (R79). There is none for the filler byte. -/
inductive Mnemonic where
  | NOP
  | LDA
  | LDB
  | LDC
  | STA
  | STB
  | STC
  | ADD
  | SUB
  | AND
  | OR
  | XOR
  | NOT
  | JMP
  | CP
deriving DecidableEq, Repr

/-- The four jump conditions (R80, R180). -/
inductive Cond where
  | z
  | nz
  | c
  | nc
deriving DecidableEq, Repr

/-- A classified operand of a source line (R80). Literals are unbounded, so that one that does not fit its field can
be written and refused (R74). A label stands for the address it resolves to. -/
inductive SourceOperand where
  | reg (r : Reg)
  | imm (n : Nat)
  | addr (n : Nat)
  | cond (k : Cond)
  | label (target : Nat)
deriving DecidableEq, Repr

end Sys2Proof
end

