-- ==== Sys2Proof/WellFormed.lean ====
section
/-! DEFINITION. Well-formed instructions: the operand values the encoder accepts (spec/30_encoding.md R74). Immediates
and addresses fit by their type; a register index must be 0, 1 or 2. -/

namespace Sys2Proof

/-- "register index in … 0,1,2" (R74); "The values 0x03 to 0xFF select no register" (R64). -/
def regIndexLegal (i : Byte) : Bool := decide (i.toNat < 3)

/-- An instruction whose every register-selector byte names a register: what a reference-assembled stream holds (R74).
An instruction that is not well-formed still decodes and executes: it raises BadRegister (R64, R228). -/
def Instr.wellFormed : Instr → Bool
  | .ldaReg r | .ldbReg r | .ldcReg r | .notR r => regIndexLegal r
  | .addRr d r | .subRr d r | .andRr d r | .orRr d r | .xorRr d r => regIndexLegal d && regIndexLegal r
  | .addRi d _ | .subRi d _ => regIndexLegal d
  | .nop | .fill => true
  | .ldaImm _ | .ldbImm _ | .ldcImm _ | .cp _ => true
  | .sta _ | .stb _ | .stc _ | .ldaAddr _ => true
  | .jmp _ | .jmpZ _ | .jmpNz _ | .jmpC _ | .jmpNc _ => true

end Sys2Proof
end

