-- ==== Sys2Proof/Decode.lean ====
section
/-! DEFINITION. The decode lookup and, after it, the encode lookup (spec/30_encoding.md R60 to R76, R79 to R82): the
opcode map, instruction lengths, the total decoder on any bytes, the encoder, the reference encoder with CP's filler,
and the shape selection of a classified source line. -/

namespace Sys2Proof

/-! ## The opcode map -/

/-- The opcode column of R66: the one place where the opcode numbers stand. -/
def Opcode.toByte : Opcode → Byte
  | .nop => 0x00
  | .ldaImm => 0x01
  | .ldaReg => 0x02
  | .sta => 0x03
  | .ldbImm => 0x04
  | .ldbReg => 0x05
  | .stb => 0x06
  | .ldcImm => 0x07
  | .ldcReg => 0x08
  | .stc => 0x09
  | .ldaAddr => 0x0A
  | .addRr => 0x0B
  | .subRr => 0x0C
  | .addRi => 0x0D
  | .subRi => 0x0E
  | .andRr => 0x0F
  | .orRr => 0x10
  | .xorRr => 0x11
  | .notR => 0x12
  | .jmp => 0x13
  | .jmpZ => 0x14
  | .jmpNz => 0x15
  | .jmpC => 0x16
  | .jmpNc => 0x17
  | .cp => 0x18
  | .fill => 0xFF

/-- The 26 rows, in the order of R66. -/
def Opcode.all : List Opcode :=
  [.nop, .ldaImm, .ldaReg, .sta, .ldbImm, .ldbReg, .stb, .ldcImm, .ldcReg, .stc, .ldaAddr, .addRr, .subRr,
   .addRi, .subRi, .andRr, .orRr, .xorRr, .notR, .jmp, .jmpZ, .jmpNz, .jmpC, .jmpNc, .cp, .fill]

/-- `decode(b0)` of R67: the row whose opcode equals `b0`, or none (Illegal). It reads nothing but `b0`. -/
def Opcode.ofByte (b0 : Byte) : Option Opcode :=
  Opcode.all.find? fun op => op.toByte == b0

/-- The format column of R66. CP is F1I: the machine consumes one operand byte (R71, D13). -/
def Opcode.format : Opcode → Format
  | .nop | .fill => .f0
  | .ldaImm | .ldbImm | .ldcImm | .cp => .f1i
  | .ldaReg | .ldbReg | .ldcReg | .notR => .f1r
  | .sta | .stb | .stc | .ldaAddr | .jmp | .jmpZ | .jmpNz | .jmpC | .jmpNc => .f2a
  | .addRr | .subRr | .andRr | .orRr | .xorRr => .f2rr
  | .addRi | .subRi => .f2ri

/-- The operand bytes of a format (R61). -/
def Format.operandBytes : Format → Nat
  | .f0 => 0
  | .f1i | .f1r => 1
  | .f2a | .f2rr | .f2ri => 2

/-- The length column of R66: one opcode byte and the operand bytes; the opcode alone determines it (R60, R70). -/
def Opcode.length (op : Opcode) : Nat := 1 + op.format.operandBytes

/-- The length in bytes of an instruction, as the machine consumes it. -/
def Instr.length (i : Instr) : Nat := i.opcode.length

/-! ## Decoding -/

/-- What the decoder answers. -/
inductive Decoded where
  /-- The instruction the first bytes encode, and the bytes after it. -/
  | instr (i : Instr) (rest : List Byte)
  /-- There is no byte at all. -/
  | noOpcode
  /-- The first byte is no row of R66: 0x19 to 0xFE (R68). -/
  | illegal (op : Byte)
  /-- The first byte is the opcode of a row, and one of the row's operand bytes is missing. -/
  | missingOperand (op : Byte)
deriving DecidableEq, Repr

/-- `addr = (b1 << 8) | b2`, high byte first in the stream (R43, R63). -/
def addrOfBytes (hi lo : Byte) : Addr := hi ++ lo

/-- One operand byte (F1I, F1R). -/
def takeByte (mk : Byte → Instr) : List Byte → Option (Instr × List Byte)
  | b1 :: rest => some (mk b1, rest)
  | [] => none

/-- Two operand bytes, the first one first (F2RR, F2RI). -/
def takeTwoBytes (mk : Byte → Byte → Instr) : List Byte → Option (Instr × List Byte)
  | b1 :: b2 :: rest => some (mk b1 b2, rest)
  | _ => none

/-- A 16-bit address, high byte first (F2A). -/
def takeAddr (mk : Addr → Instr) : List Byte → Option (Instr × List Byte)
  | hi :: lo :: rest => some (mk (addrOfBytes hi lo), rest)
  | _ => none

/-- The operands of a row, taken from the bytes that follow its opcode (R61 to R65). -/
def Opcode.takeOperands (op : Opcode) (bs : List Byte) : Option (Instr × List Byte) :=
  match op with
  | .nop => some (.nop, bs)
  | .ldaImm => takeByte .ldaImm bs
  | .ldaReg => takeByte .ldaReg bs
  | .sta => takeAddr .sta bs
  | .ldbImm => takeByte .ldbImm bs
  | .ldbReg => takeByte .ldbReg bs
  | .stb => takeAddr .stb bs
  | .ldcImm => takeByte .ldcImm bs
  | .ldcReg => takeByte .ldcReg bs
  | .stc => takeAddr .stc bs
  | .ldaAddr => takeAddr .ldaAddr bs
  | .addRr => takeTwoBytes .addRr bs
  | .subRr => takeTwoBytes .subRr bs
  | .addRi => takeTwoBytes .addRi bs
  | .subRi => takeTwoBytes .subRi bs
  | .andRr => takeTwoBytes .andRr bs
  | .orRr => takeTwoBytes .orRr bs
  | .xorRr => takeTwoBytes .xorRr bs
  | .notR => takeByte .notR bs
  | .jmp => takeAddr .jmp bs
  | .jmpZ => takeAddr .jmpZ bs
  | .jmpNz => takeAddr .jmpNz bs
  | .jmpC => takeAddr .jmpC bs
  | .jmpNc => takeAddr .jmpNc bs
  | .cp => takeByte .cp bs
  | .fill => some (.fill, bs)

/-- The decoder, total on any bytes: the first byte selects the row (R67), the row's format says how many operand
bytes follow and what they are (R60, R61). -/
def decode : List Byte → Decoded
  | [] => .noOpcode
  | b0 :: bs =>
    match Opcode.ofByte b0 with
    | none => .illegal b0
    | some op =>
      match op.takeOperands bs with
      | none => .missingOperand b0
      | some (i, rest) => .instr i rest

/-- The longest instruction, in bytes (R60). -/
def maxLength : Nat := 3

/-- The bytes of an instruction given as one number: byte k is bits 8k+7 to 8k, every bit from `nbits` up is 0, and
there are as many bytes as the longest instruction has. -/
def wordBytes (nbits w : Nat) : List Byte :=
  (List.range maxLength).map fun k => BitVec.ofNat 8 (w % 2 ^ nbits / 2 ^ (8 * k))

/-- The instruction the decoder reads from an instruction numbered as spec/opcode_table.json numbers it. -/
def decodeTableWord (nbits w : Nat) : Option Instr :=
  match decode (wordBytes nbits w) with
  | .instr i _ => some i
  | _ => none

/-! ## Encoding -/

/-- "a 16-bit address as two bytes", high byte first (R72). -/
def addrBytes (a : Addr) : List Byte := [a.extractLsb' 8 8, a.extractLsb' 0 8]

/-- The operand bytes of an instruction in stream order (R61, R72). -/
def Instr.operandBytes : Instr → List Byte
  | .nop | .fill => []
  | .ldaImm n | .ldbImm n | .ldcImm n | .cp n => [n]
  | .ldaReg r | .ldbReg r | .ldcReg r | .notR r => [r]
  | .sta a | .stb a | .stc a | .ldaAddr a => addrBytes a
  | .jmp a | .jmpZ a | .jmpNz a | .jmpC a | .jmpNc a => addrBytes a
  | .addRr d r | .subRr d r | .andRr d r | .orRr d r | .xorRr d r => [d, r]
  | .addRi d n | .subRi d n => [d, n]

/-- The bytes of one machine instruction: the opcode, then the operand bytes (R72). CP has two (R71). -/
def encode (i : Instr) : List Byte := i.opcode.toByte :: i.operandBytes

/-- The filler byte the reference encoder puts after CP's immediate, itself the instruction FILL (R73, R202). -/
def fillerByte : Byte := Opcode.fill.toByte

/-- What the reference encoder emits for an instruction: `encode`, and for CP the filler in the reserved second
operand slot, `18 nn FF` (R73). -/
def emit (i : Instr) : List Byte :=
  match i.opcode with
  | .cp => encode i ++ [fillerByte]
  | _ => encode i

/-- An immediate that fits 0 to 255 (R74). -/
def fitImm (n : Nat) : Option Byte := if n < 256 then some (BitVec.ofNat 8 n) else none

/-- A register index that fits 0 to 2 (R74). -/
def fitReg (n : Nat) : Option Byte := if n < 3 then some (BitVec.ofNat 8 n) else none

/-- An address that fits 0 to 65535 (R74). -/
def fitAddr (n : Nat) : Option Addr := if n < 65536 then some (BitVec.ofNat 16 n) else none

/-- One operand value. -/
def buildOne {α : Type} (fit : Nat → Option α) (mk : α → Instr) : List Nat → Option Instr
  | [n] => (fit n).map mk
  | _ => none

/-- Two operand values, the destination index first. -/
def buildTwo (fit : Nat → Option Byte) (mk : Byte → Byte → Instr) : List Nat → Option Instr
  | [d, n] => (fitReg d).bind fun i => (fit n).map (mk i)
  | _ => none

/-- The instruction of a row with the given operand values, or none where a value does not fit its field or their
number is wrong: the encoder refuses (R72, R74, D17). -/
def Opcode.build (op : Opcode) (values : List Nat) : Option Instr :=
  match op with
  | .nop => if values = [] then some .nop else none
  | .ldaImm => buildOne fitImm .ldaImm values
  | .ldaReg => buildOne fitReg .ldaReg values
  | .sta => buildOne fitAddr .sta values
  | .ldbImm => buildOne fitImm .ldbImm values
  | .ldbReg => buildOne fitReg .ldbReg values
  | .stb => buildOne fitAddr .stb values
  | .ldcImm => buildOne fitImm .ldcImm values
  | .ldcReg => buildOne fitReg .ldcReg values
  | .stc => buildOne fitAddr .stc values
  | .ldaAddr => buildOne fitAddr .ldaAddr values
  | .addRr => buildTwo fitReg .addRr values
  | .subRr => buildTwo fitReg .subRr values
  | .addRi => buildTwo fitImm .addRi values
  | .subRi => buildTwo fitImm .subRi values
  | .andRr => buildTwo fitReg .andRr values
  | .orRr => buildTwo fitReg .orRr values
  | .xorRr => buildTwo fitReg .xorRr values
  | .notR => buildOne fitReg .notR values
  | .jmp => buildOne fitAddr .jmp values
  | .jmpZ => buildOne fitAddr .jmpZ values
  | .jmpNz => buildOne fitAddr .jmpNz values
  | .jmpC => buildOne fitAddr .jmpC values
  | .jmpNc => buildOne fitAddr .jmpNc values
  | .cp => buildOne fitImm .cp values
  | .fill => if values = [] then some .fill else none

/-- The encode lookup of R72 to R74: a row and its operand values to the bytes the reference encoder emits; none where
it refuses. -/
def encodeRow (op : Opcode) (values : List Nat) : Option (List Byte) :=
  (op.build values).map emit

/-- The operand values of an instruction, in the order its row takes them. -/
def Instr.operandValues : Instr → List Nat
  | .nop | .fill => []
  | .ldaImm n | .ldbImm n | .ldcImm n | .cp n => [n.toNat]
  | .ldaReg r | .ldbReg r | .ldcReg r | .notR r => [r.toNat]
  | .sta a | .stb a | .stc a | .ldaAddr a => [a.toNat]
  | .jmp a | .jmpZ a | .jmpNz a | .jmpC a | .jmpNc a => [a.toNat]
  | .addRr d r | .subRr d r | .andRr d r | .orRr d r | .xorRr d r => [d.toNat, r.toNat]
  | .addRi d n | .subRi d n => [d.toNat, n.toNat]

/-! ## The shape of a source line -/

/-- The register index of R21. -/
def Reg.index : Reg → Nat
  | .a => 0
  | .b => 1
  | .c => 2

/-- The row of a conditional jump: the condition is part of the opcode (R62, R180). -/
def Cond.jump : Cond → Opcode
  | .z => .jmpZ
  | .nz => .jmpNz
  | .c => .jmpC
  | .nc => .jmpNc

/-- "The shape, and with it the opcode, is selected by the mnemonic and the class of the operand tokens" (R82), with
the operand values for that row; none where no row has the shape (`LDB $addr` among them). A jump takes a label; whether
it takes an address literal is not settled (R84) and is refused (log entry 9). What becomes of operands beyond those the
shape takes (`LDA 5 6`, `NOP 5`), or of too few, the spec does not say (R79, R83): that they too are refused is a DESIGN
CHOICE (log entry 32). -/
def selectShape : Mnemonic → List SourceOperand → Option (Opcode × List Nat)
  | .NOP, [] => some (.nop, [])
  | .LDA, [.imm n] => some (.ldaImm, [n])
  | .LDA, [.reg r] => some (.ldaReg, [r.index])
  | .LDA, [.addr n] => some (.ldaAddr, [n])
  | .LDB, [.imm n] => some (.ldbImm, [n])
  | .LDB, [.reg r] => some (.ldbReg, [r.index])
  | .LDC, [.imm n] => some (.ldcImm, [n])
  | .LDC, [.reg r] => some (.ldcReg, [r.index])
  | .STA, [.addr n] => some (.sta, [n])
  | .STB, [.addr n] => some (.stb, [n])
  | .STC, [.addr n] => some (.stc, [n])
  | .ADD, [.reg d, .reg r] => some (.addRr, [d.index, r.index])
  | .ADD, [.reg d, .imm n] => some (.addRi, [d.index, n])
  | .SUB, [.reg d, .reg r] => some (.subRr, [d.index, r.index])
  | .SUB, [.reg d, .imm n] => some (.subRi, [d.index, n])
  | .AND, [.reg d, .reg r] => some (.andRr, [d.index, r.index])
  | .OR, [.reg d, .reg r] => some (.orRr, [d.index, r.index])
  | .XOR, [.reg d, .reg r] => some (.xorRr, [d.index, r.index])
  | .NOT, [.reg d] => some (.notR, [d.index])
  | .JMP, [.label t] => some (.jmp, [t])
  | .JMP, [.cond k, .label t] => some (k.jump, [t])
  | .CP, [.imm n] => some (.cp, [n])
  | _, _ => none

/-- The bytes of one source line: shape selection, then the encode lookup. -/
def encodeLine (m : Mnemonic) (operands : List SourceOperand) : Option (List Byte) :=
  (selectShape m operands).bind fun (op, values) => encodeRow op values

/-- The binary program format: "the concatenation of the encodings of the source lines in order", with no header, no
end marker and nothing else (R76). None where a line is refused: assembly errors are fatal (R83). -/
def encodeProgram : List (Mnemonic × List SourceOperand) → Option (List Byte)
  | [] => some []
  | (m, operands) :: lines =>
    (encodeLine m operands).bind fun bytes => (encodeProgram lines).map fun tail => bytes ++ tail

end Sys2Proof
end

