-- ==== Sys2Proof/Machine/Memory.lean ====
section
/-! DEFINITION. A store as data: a list of (address, byte) pairs in one canonical form, used for both the program store
and the data store (spec/20_memory.md R40: "two independent fixed-size byte arrays"). `fill` is what an unlisted
address reads as: PROG_FILL for the program store, INIT_DATA for the data store (spec/10_state.md R34). -/

namespace Sys2Proof.Machine

/-- The listed cells of a store. -/
abbrev Memory := List Host.Cell

/-- The byte at an address: the listed one, or `fill`. -/
def Memory.read (fill : Byte) : Memory → Nat → Byte
  | [], _ => fill
  | (k, w) :: m, a => if k = a then w else Memory.read fill m a

/-- Write one byte, keeping the canonical form: writing `fill` removes the entry. -/
def Memory.write (fill : Byte) : Memory → Nat → Byte → Memory
  | [], a, v => if v = fill then [] else [(a, v)]
  | (k, w) :: m, a, v =>
    if a < k then
      if v = fill then (k, w) :: m else (a, v) :: (k, w) :: m
    else if a = k then
      if v = fill then m else (a, v) :: m
    else (k, w) :: Memory.write fill m a v

/-- Write bytes at rising addresses from `a` up. -/
def Memory.writeAll (fill : Byte) : Memory → Nat → List Byte → Memory
  | m, _, [] => m
  | m, a, v :: vs => Memory.writeAll fill (Memory.write fill m a v) (a + 1) vs

/-- The canonical form: addresses strictly rising and inside the store, and no entry equal to what an unlisted address
reads as. -/
abbrev Memory.wf (size : Nat) (fill : Byte) (m : Memory) : Prop :=
  m.Pairwise (fun x y => x.1 < y.1) ∧ ∀ x ∈ m, x.1 < size ∧ x.2 ≠ fill

end Sys2Proof.Machine
end

