-- ==== Sys2Proof/Config.lean ====
section
/-! DEFINITION. The parameters of the machine as a configuration record (spec/00_scope.md R5: "A model should carry them
as a configuration record"). The values this hardware takes are Sys2Proof.Machine.config, in Machine/Params.lean. -/

namespace Sys2Proof

/-- The Flags register: "two independent boolean bits: Zero and Carry" (R26), assigned together; no byte layout of it
exists and none is invented. `zero` is the spec's Z, `carry` its CY. -/
structure Flags where
  zero : Bool
  carry : Bool
deriving DecidableEq, Repr

/-- The two arithmetic operations (R140). -/
inductive ArithOp where
  | add
  | sub
deriving DecidableEq, Repr

/-- The parameters of R5, by the spec's names. `ASM_SYNTAX` is left out: no machine rule uses it (R84). `IMG_LEN` is an
argument of the load (R5): the length of the image. -/
structure Config where
  /-- XLEN: register width. -/
  xlen : Nat
  /-- NREG: number of general registers. -/
  nreg : Nat
  /-- PCLEN: program-counter width. -/
  pclen : Nat
  /-- ALEN: width of an encoded address. -/
  alen : Nat
  /-- PROG_SIZE: bytes in the program store. -/
  progSize : Nat
  /-- DATA_SIZE: bytes in the data store. -/
  dataSize : Nat
  /-- PROG_FILL: value of the program-store bytes the image does not cover. -/
  progFill : Byte
  /-- INIT_REGS: reset values of A, B and C. -/
  initA : Byte
  initB : Byte
  initC : Byte
  /-- INIT_FLAGS: reset value of the flags. -/
  initFlags : Flags
  /-- INIT_DATA: reset value of every byte of the data store. -/
  initData : Byte
  /-- ARITH_FLAGS: the flags ADD and SUB write, from the two operands (R141). -/
  arithFlags : ArithOp → Byte → Byte → Flags

end Sys2Proof
end

