-- ==== Sys2Proof/Machine/Flags.lean ====
section
/-! DEFINITION. Arithmetic results and every flag computation of the spec (spec/42_arithmetic.md R140, R141,
spec/45_compare_and_filler.md R201), as functions of bytes. -/

namespace Sys2Proof.Machine

/-- `trunc8(v)`: `v mod 256` (R7). -/
def trunc8 (v : Int) : Byte := BitVec.ofInt 8 v

/-- The exact value of ADD and SUB on unsigned operands, before it is narrowed (R140): SUB is target minus right. -/
def arithExact : ArithOp → Byte → Byte → Int
  | .add, a, b => a.toNat + b.toNat
  | .sub, a, b => a.toNat - b.toNat

/-- The byte ADD and SUB write: the true result reduced modulo 256 (R140, D4). -/
def arithResult (op : ArithOp) (a b : Byte) : Byte := trunc8 (arithExact op a b)

/-- The value of ARITH_FLAGS (R141, D3): Z exactly when the byte written is 0x00; the carry is `a + b > 255` for ADD and
the borrow `a < b` for SUB. -/
def arithFlags (op : ArithOp) (a b : Byte) : Flags where
  zero := arithResult op a b == 0
  carry :=
    match op with
    | .add => decide (a.toNat + b.toNat > 255)
    | .sub => decide (a.toNat < b.toNat)

/-- The flags of a compare of accumulator `a` with immediate `n`: `(a == n, a < n)` on unsigned values, one
assignment of both (R200, R201). -/
def compareFlags (a n : Byte) : Flags where
  zero := a == n
  carry := decide (a.toNat < n.toNat)

end Sys2Proof.Machine
end

