-- ==== Sys2Proof/Machine/Params.lean ====
section
/-! DEFINITION. The parameter values this hardware takes (spec/00_scope.md R5). -/

namespace Sys2Proof.Machine

/-- R5's values: the sizes are D11, the fill D12, the reset values D1 and D2, the flag function D3. -/
def config : Config where
  xlen := 8
  nreg := 3
  pclen := 16
  alen := 16
  progSize := 4096
  dataSize := 4096
  progFill := 0x00
  initA := 0x00
  initB := 0x00
  initC := 0x00
  initFlags := ⟨false, false⟩
  initData := 0x00
  arithFlags := arithFlags

end Sys2Proof.Machine
end

