-- ==== Sys2Proof/Machine/State.lean ====
section
/-! DEFINITION. The complete architectural state (spec/10_state.md R20), the reset state (R34), the machine's fault
events (spec/60_exceptions.md R221) and the two reason types of the host's interface. -/

namespace Sys2Proof.Machine

/-- `status`, the run-status register (R28, R221). A run is in progress exactly in `running`; the two halts are stops,
the other four are faults of the machine, all of them states and none a stop of this model. -/
inductive Status where
  /-- 0: the run is in progress. -/
  | running
  /-- 1: opcode 0x00 was decoded. -/
  | haltNop
  /-- 2: `pc >= PROG_SIZE` at the head of a cycle. -/
  | haltEnd
  /-- 3: an opcode byte 0x19 to 0xFE. -/
  | faultIllegalOpcode
  /-- 4: an operand byte was due and `pc >= PROG_SIZE`. -/
  | faultProgOutOfBounds
  /-- 5: a data address at or above DATA_SIZE. -/
  | faultDataOutOfBounds
  /-- 6: a register-index operand byte of 3 or more. -/
  | faultBadRegister
deriving DecidableEq, Repr

/-- `fault_info`: what the last fault recorded (R29). -/
structure FaultInfo where
  addr : Addr
  byte : Byte
deriving DecidableEq, Repr

/-- The faults of the machine with what each records (R221, R224 to R228). -/
inductive FaultEvent where
  /-- An illegal opcode byte `op` at `pc0` (R224). -/
  | illegalOpcode (pc0 : Addr) (op : Byte)
  /-- The operand byte due at `at_` is past the program store, in the instruction with opcode byte `op` (R225). -/
  | progOutOfBounds (at_ : Addr) (op : Byte)
  /-- A data access at `addr` past the data store, by the instruction with opcode byte `op` (R227). -/
  | dataOutOfBounds (addr : Addr) (op : Byte)
  /-- The register-index byte `index` of the instruction at `pc0` selects no register (R228). -/
  | badRegister (pc0 : Addr) (index : Byte)
deriving DecidableEq, Repr

/-- The tuple of R20 "and nothing else". -/
structure State where
  /-- A = x[0], the accumulator (R21). -/
  a : Byte
  /-- B = x[1] (R21). -/
  b : Byte
  /-- C = x[2] (R21). -/
  c : Byte
  /-- The program counter: between instructions, the address of the next opcode byte (R23). -/
  pc : Addr
  /-- Z and CY, the Flags register (R26). -/
  flags : Flags
  /-- The run status (R28). -/
  status : Status
  /-- What the last fault recorded (R29). -/
  faultInfo : FaultInfo
  /-- The program store, read by instruction fetch only (R31); an unlisted byte is PROG_FILL. -/
  prog : Memory
  /-- The data store (R32); an unlisted byte is INIT_DATA. -/
  data : Memory
deriving DecidableEq, Repr

/-- Why the model stops with a fault. `step` and the meanings of the instructions never do: every fault of the machine
is a `status` of a next state. -/
inductive Fault where
  /-- Raised by `hostMove` alone: the host tries to load or to reset while `status = Running`, which it does not do
  (R266, R268). SAFE: the model stops where the spec gives no transition. -/
  | hostMoveWhileRunning
deriving DecidableEq, Repr

/-- Why the model refuses. -/
inductive Refusal where
  /-- Raised by an arm of `exec` for an instruction that has no meaning yet; no arm does. SAFE. -/
  | notModelled (mnemonic : String)
  /-- Raised by `resetWith` and `hostMove` alone: "the load is refused and no run takes place" for an image longer than
  PROG_SIZE (R264, D12). SAFE. -/
  | imageTooLong
deriving DecidableEq, Repr

/-- The three outcomes of a step or a host move. -/
abbrev Result := Host.Outcome State Fault Refusal

/-- The machine right after reset (R34, R260), with the empty image, which is legal (R263): `prog` is all PROG_FILL. -/
def State.reset : State where
  a := config.initA
  b := config.initB
  c := config.initC
  pc := 0x0000
  flags := config.initFlags
  status := .running
  faultInfo := ⟨0x0000, 0x00⟩
  prog := []
  data := []

end Sys2Proof.Machine
end

