-- ==== Sys2Proof/Machine/Ops.lean ====
section
/-! DEFINITION. The primitives of spec/00_scope.md R8 over the state: registers, flags, program counter, the two stores,
and `halt` and `raise`, the one shared way a run ends (spec/60_exceptions.md R220 to R228). There is no return from a
terminal event (R232): nothing stands beside `raise`. -/

namespace Sys2Proof.Machine

/-- `x[i]` (R8). -/
def State.get (s : State) : Reg → Byte
  | .a => s.a
  | .b => s.b
  | .c => s.c

/-- `x[i] <- v` (R8); "a write to one never changes another" (R21). -/
def State.set (s : State) (r : Reg) (v : Byte) : State :=
  match r with
  | .a => { s with a := v }
  | .b => { s with b := v }
  | .c => { s with c := v }

/-- `(Z, CY) <- (z, c)`, "one simultaneous assignment of both" (R8). -/
def State.setFlags (s : State) (f : Flags) : State := { s with flags := f }

/-- `pc` moved past `n` consumed bytes (R23, R24). -/
def State.advance (s : State) (n : Nat) : State := { s with pc := s.pc + BitVec.ofNat 16 n }

/-- `pc <- t` (R8). -/
def State.jumpTo (s : State) (t : Addr) : State := { s with pc := t }

/-- `ProgRead(a)` (R8, R44); the caller checks the bound. -/
def State.progByte (s : State) (a : Nat) : Byte := Memory.read config.progFill s.prog a

/-- The byte of the data store at `a`; the caller checks the bound. -/
def State.dataByte (s : State) (a : Nat) : Byte := Memory.read config.initData s.data a

/-- `MemRead(a, 1)`: none where it raises DataOutOfBounds (R46). -/
def State.memRead (s : State) (addr : Addr) : Option Byte :=
  if addr.toNat < config.dataSize then some (s.dataByte addr.toNat) else none

/-- `MemWrite(a, 1, v)`: none where it raises DataOutOfBounds, and then nothing is written (R46). -/
def State.memWrite (s : State) (addr : Addr) (v : Byte) : Option State :=
  if addr.toNat < config.dataSize then
    some { s with data := Memory.write config.initData s.data addr.toNat v }
  else none

/-- The numeric code of a status (R221). -/
def Status.code : Status → Nat
  | .running => 0
  | .haltNop => 1
  | .haltEnd => 2
  | .faultIllegalOpcode => 3
  | .faultProgOutOfBounds => 4
  | .faultDataOutOfBounds => 5
  | .faultBadRegister => 6

/-- The four fault codes, as against the stops (R221). -/
def Status.isFault : Status → Bool
  | .faultIllegalOpcode | .faultProgOutOfBounds | .faultDataOutOfBounds | .faultBadRegister => true
  | .running | .haltNop | .haltEnd => false

/-- The status a fault sets (R221). -/
def FaultEvent.status : FaultEvent → Status
  | .illegalOpcode _ _ => .faultIllegalOpcode
  | .progOutOfBounds _ _ => .faultProgOutOfBounds
  | .dataOutOfBounds _ _ => .faultDataOutOfBounds
  | .badRegister _ _ => .faultBadRegister

/-- The pair a fault records (R221, R224 to R228). -/
def FaultEvent.info : FaultEvent → FaultInfo
  | .illegalOpcode pc0 op => ⟨pc0, op⟩
  | .progOutOfBounds at_ op => ⟨at_, op⟩
  | .dataOutOfBounds addr op => ⟨addr, op⟩
  | .badRegister pc0 index => ⟨pc0, index⟩

/-- `halt(code)` (R8, R105): a stop writes `status` and leaves `fault_info` alone (R29). -/
def State.halt (s : State) (st : Status) : State := { s with status := st }

/-- `raise E(info)` (R8): `status` and `fault_info` are written and nothing else; `pc` stays where the fetch protocol
has it (R226, R231). -/
def State.raise (s : State) (e : FaultEvent) : State := { s with status := e.status, faultInfo := e.info }

end Sys2Proof.Machine
end

