-- ==== Sys2Proof/Machine/Operands.lean ====
section
/-! DEFINITION. The operand forms of the instructions: validated register indices (spec/30_encoding.md R64) and absolute
data addresses (R63, spec/20_memory.md R46). In each, `s` is the state at the opcode byte (`s.pc` is the spec's `pc0`),
all operand bytes have been fetched (spec/40_cycle_and_nop.md R104), so `pc` first passes the whole instruction. -/

namespace Sys2Proof.Machine

/-- `Reg(i)`: the register of an index byte, none where it raises BadRegister (R8, R64). -/
def regOfIndex (i : Byte) : Option Reg :=
  match i.toNat with
  | 0 => some .a
  | 1 => some .b
  | 2 => some .c
  | _ => none

/-- One register operand: `act` on the register it names, or BadRegister with nothing written (R64, R228). -/
def withReg (op : Opcode) (i : Byte) (s : State) (act : Reg → State → State) : State :=
  match regOfIndex i with
  | none => (s.advance op.length).raise (.badRegister s.pc i)
  | some r => act r (s.advance op.length)

/-- Two register operands, "destination index before source index" (R64, R228). -/
def withRegs (op : Opcode) (d i : Byte) (s : State) (act : Reg → Reg → State → State) : State :=
  withReg op d s fun r s1 =>
    match regOfIndex i with
    | none => s1.raise (.badRegister s.pc i)
    | some q => act r q s1

/-- `v = MemRead(addr, 1)` and then `act`; or DataOutOfBounds with nothing written (R46, R227). -/
def withLoad (op : Opcode) (addr : Addr) (s : State) (act : Byte → State → State) : State :=
  let s1 := s.advance op.length
  match s1.memRead addr with
  | none => s1.raise (.dataOutOfBounds addr op.toByte)
  | some v => act v s1

/-- `MemWrite(addr, 1, v)`; or DataOutOfBounds with nothing written (R46, R227). -/
def storeByte (op : Opcode) (addr : Addr) (v : Byte) (s : State) : State :=
  let s1 := s.advance op.length
  match s1.memWrite addr v with
  | none => s1.raise (.dataOutOfBounds addr op.toByte)
  | some s2 => s2

end Sys2Proof.Machine
end

