-- ==== Sys2Proof/Machine/Arithmetic.lean ====
section
/-! DEFINITION. ADD and SUB (spec/42_arithmetic.md). The flag function is an argument of the shared operation, so that
a proof that must not rest on decision D3 can quantify over it (R141). -/

namespace Sys2Proof.Machine

/-- `x[d]` becomes the result of `x[d]` and the right operand, and both flags are assigned at once (R140, R141). -/
def arith (flagsOf : ArithOp → Byte → Byte → Flags) (op : ArithOp) (d : Reg) (right : Byte) (s : State) : State :=
  (s.set d (arithResult op (s.get d) right)).setFlags (flagsOf op (s.get d) right)

/-- ADD.rr (R142). -/
def execAddRr (dst src : Byte) (s : State) : Result :=
  .next (withRegs .addRr dst src s fun d r s1 => arith config.arithFlags .add d (s1.get r) s1)

/-- SUB.rr (R143). -/
def execSubRr (dst src : Byte) (s : State) : Result :=
  .next (withRegs .subRr dst src s fun d r s1 => arith config.arithFlags .sub d (s1.get r) s1)

/-- ADD.ri (R144). -/
def execAddRi (dst imm : Byte) (s : State) : Result :=
  .next (withReg .addRi dst s fun d s1 => arith config.arithFlags .add d imm s1)

/-- SUB.ri (R145). -/
def execSubRi (dst imm : Byte) (s : State) : Result :=
  .next (withReg .subRi dst s fun d s1 => arith config.arithFlags .sub d imm s1)

end Sys2Proof.Machine
end

