-- ==== Sys2Proof/Machine/Bitwise.lean ====
section
/-! DEFINITION. AND, OR, XOR and NOT (spec/43_bitwise.md): registers only, and no flag is written (R160, D6, D7). -/

namespace Sys2Proof.Machine

/-- `x[d] <- f x[d] x[s]` (R160). -/
def bitwise (op : Opcode) (f : Byte → Byte → Byte) (dst src : Byte) (s : State) : State :=
  withRegs op dst src s fun d r s1 => s1.set d (f (s1.get d) (s1.get r))

/-- AND (R161). -/
def execAndRr (dst src : Byte) (s : State) : Result := .next (bitwise .andRr (fun x y => x &&& y) dst src s)

/-- OR (R162). -/
def execOrRr (dst src : Byte) (s : State) : Result := .next (bitwise .orRr (fun x y => x ||| y) dst src s)

/-- XOR (R163). -/
def execXorRr (dst src : Byte) (s : State) : Result := .next (bitwise .xorRr (fun x y => x ^^^ y) dst src s)

/-- NOT (R164): every bit inverted. -/
def execNotR (dst : Byte) (s : State) : Result :=
  .next (withReg .notR dst s fun d s1 => s1.set d (~~~ s1.get d))

end Sys2Proof.Machine
end

