-- ==== Sys2Proof/Machine/Compare.lean ====
section
/-! DEFINITION. CP, the compare of the accumulator with an immediate (spec/45_compare_and_filler.md). -/

namespace Sys2Proof.Machine

/-- CP (R200): both flags by R201, A read and not written, `pc = pc0 + 2`. -/
def execCp (imm : Byte) (s : State) : Result :=
  .next ((s.advance Opcode.cp.length).setFlags (compareFlags (s.get .a) imm))

end Sys2Proof.Machine
end

