-- ==== Sys2Proof/Machine/Control.lean ====
section
/-! DEFINITION. NOP, which stops the run (spec/40_cycle_and_nop.md), and FILL, the only no-operation
(spec/45_compare_and_filler.md). -/

namespace Sys2Proof.Machine

/-- NOP (R107, R222): `halt(HaltNop)` with `pc = pc0 + 1`. -/
def execNop (s : State) : Result := .next ((s.advance Opcode.nop.length).halt .haltNop)

/-- FILL (R202): nothing but `pc = pc0 + 1`. -/
def execFill (s : State) : Result := .next (s.advance Opcode.fill.length)

end Sys2Proof.Machine
end

