-- ==== Sys2Proof/Machine/Jumps.lean ====
section
/-! DEFINITION. The five absolute jumps (spec/44_jumps.md). The target is not checked when the jump executes (R186); no
jump writes a register, a flag or memory (R180). -/

namespace Sys2Proof.Machine

/-- A jump with its condition: `pc <- target` where it holds, else past the instruction (R180). -/
def jumpIf (op : Opcode) (taken : Bool) (target : Addr) (s : State) : State :=
  if taken then s.jumpTo target else s.advance op.length

/-- JMP (R181). -/
def execJmp (target : Addr) (s : State) : Result := .next (jumpIf .jmp true target s)

/-- JMP.Z (R182): taken when Z = 1. -/
def execJmpZ (target : Addr) (s : State) : Result := .next (jumpIf .jmpZ s.flags.zero target s)

/-- JMP.NZ (R183): taken when Z = 0. -/
def execJmpNz (target : Addr) (s : State) : Result := .next (jumpIf .jmpNz (!s.flags.zero) target s)

/-- JMP.C (R184): taken when CY = 1. -/
def execJmpC (target : Addr) (s : State) : Result := .next (jumpIf .jmpC s.flags.carry target s)

/-- JMP.NC (R185): taken when CY = 0. -/
def execJmpNc (target : Addr) (s : State) : Result := .next (jumpIf .jmpNc (!s.flags.carry) target s)

end Sys2Proof.Machine
end

