-- ==== Sys2Proof/Machine/LoadStore.lean ====
section
/-! DEFINITION. Loads and stores (spec/41_load_store.md): a copy of all 8 bits, with no flag read or written (R130). -/

namespace Sys2Proof.Machine

/-- `x[dst] <- imm` (R120 to R122). -/
def loadImm (op : Opcode) (dst : Reg) (imm : Byte) (s : State) : State :=
  (s.advance op.length).set dst imm

/-- `i = Reg(src); x[dst] <- x[i]` (R123 to R125). -/
def loadReg (op : Opcode) (dst : Reg) (src : Byte) (s : State) : State :=
  withReg op src s fun i s1 => s1.set dst (s1.get i)

/-- LDA.imm (R120). -/
def execLdaImm (imm : Byte) (s : State) : Result := .next (loadImm .ldaImm .a imm s)

/-- LDB.imm (R121). -/
def execLdbImm (imm : Byte) (s : State) : Result := .next (loadImm .ldbImm .b imm s)

/-- LDC.imm (R122). -/
def execLdcImm (imm : Byte) (s : State) : Result := .next (loadImm .ldcImm .c imm s)

/-- LDA.reg (R123). -/
def execLdaReg (src : Byte) (s : State) : Result := .next (loadReg .ldaReg .a src s)

/-- LDB.reg (R124). -/
def execLdbReg (src : Byte) (s : State) : Result := .next (loadReg .ldbReg .b src s)

/-- LDC.reg (R125). -/
def execLdcReg (src : Byte) (s : State) : Result := .next (loadReg .ldcReg .c src s)

/-- STA (R126): `MemWrite(addr, 1, x[0])`. -/
def execSta (addr : Addr) (s : State) : Result := .next (storeByte .sta addr (s.get .a) s)

/-- STB (R127): `MemWrite(addr, 1, x[1])`. -/
def execStb (addr : Addr) (s : State) : Result := .next (storeByte .stb addr (s.get .b) s)

/-- STC (R128): `MemWrite(addr, 1, x[2])`. -/
def execStc (addr : Addr) (s : State) : Result := .next (storeByte .stc addr (s.get .c) s)

/-- LDA.addr (R129): `v = MemRead(addr, 1); x[0] <- v`. -/
def execLdaAddr (addr : Addr) (s : State) : Result :=
  .next (withLoad .ldaAddr addr s fun v s1 => s1.set .a v)

end Sys2Proof.Machine
end

