-- ==== Sys2Proof/Machine/Dispatch.lean ====
section
/-! DEFINITION. One arm per instruction. `exec i s` is the effect of `i` on the state `s` whose `pc` is the address of the
opcode byte, all of the instruction's bytes having been fetched (spec/40_cycle_and_nop.md R104). -/

namespace Sys2Proof.Machine

def exec (i : Instr) (s : State) : Host.Outcome State Fault Refusal :=
  match i with
  | .nop => Sys2Proof.Machine.execNop s
  | .ldaImm imm => Sys2Proof.Machine.execLdaImm imm s
  | .ldaReg src => Sys2Proof.Machine.execLdaReg src s
  | .sta addr => Sys2Proof.Machine.execSta addr s
  | .ldbImm imm => Sys2Proof.Machine.execLdbImm imm s
  | .ldbReg src => Sys2Proof.Machine.execLdbReg src s
  | .stb addr => Sys2Proof.Machine.execStb addr s
  | .ldcImm imm => Sys2Proof.Machine.execLdcImm imm s
  | .ldcReg src => Sys2Proof.Machine.execLdcReg src s
  | .stc addr => Sys2Proof.Machine.execStc addr s
  | .ldaAddr addr => Sys2Proof.Machine.execLdaAddr addr s
  | .addRr dst src => Sys2Proof.Machine.execAddRr dst src s
  | .subRr dst src => Sys2Proof.Machine.execSubRr dst src s
  | .addRi dst imm => Sys2Proof.Machine.execAddRi dst imm s
  | .subRi dst imm => Sys2Proof.Machine.execSubRi dst imm s
  | .andRr dst src => Sys2Proof.Machine.execAndRr dst src s
  | .orRr dst src => Sys2Proof.Machine.execOrRr dst src s
  | .xorRr dst src => Sys2Proof.Machine.execXorRr dst src s
  | .notR dst => Sys2Proof.Machine.execNotR dst s
  | .jmp target => Sys2Proof.Machine.execJmp target s
  | .jmpZ target => Sys2Proof.Machine.execJmpZ target s
  | .jmpNz target => Sys2Proof.Machine.execJmpNz target s
  | .jmpC target => Sys2Proof.Machine.execJmpC target s
  | .jmpNc target => Sys2Proof.Machine.execJmpNc target s
  | .cp imm => Sys2Proof.Machine.execCp imm s
  | .fill => Sys2Proof.Machine.execFill s

end Sys2Proof.Machine
end

