-- ==== Sys2Proof/Machine/Cycle.lean ====
section
/-! DEFINITION. The fetch-decode-execute cycle (spec/40_cycle_and_nop.md R101): the bytes the fetch can reach, the cycle,
and the placing of bytes where the next cycle fetches them. Machine/Protocol.lean writes the same cycle byte by byte. -/

namespace Sys2Proof.Machine

/-- Up to `n` bytes of the program store from address `a` up, ending at the end of the store: a read at or past
PROG_SIZE never happens (R47). -/
def State.bytesFrom (s : State) : Nat → Nat → List Byte
  | 0, _ => []
  | n + 1, a => if a < config.progSize then s.progByte a :: s.bytesFrom n (a + 1) else []

/-- The bytes the fetch of one instruction can consume: those at `pc` and after, as many as the longest instruction has
and the store holds. -/
def State.window (s : State) : List Byte := s.bytesFrom maxLength s.pc.toNat

/-- One cycle (R101). A core that is not Running stays as it is (R105); with no opcode byte left the run stops as
HaltEnd (R105, R223); an illegal opcode byte has been consumed when it faults (R224); a missing operand byte faults with
`pc` at it and the operand bytes before it consumed (R102, R225); otherwise the instruction executes. -/
def cycle (s : State) : Result :=
  if s.status = .running then
    match decode s.window with
    | .noOpcode => .next (s.halt .haltEnd)
    | .illegal op => .next ((s.advance 1).raise (.illegalOpcode s.pc op))
    | .missingOperand op =>
      let s1 := s.advance s.window.length
      .next (s1.raise (.progOutOfBounds s1.pc op))
    | .instr i _ => exec i s
  else .next s

/-- The state with `bytes` in the program store where the next cycle fetches them, and the core running. `pc` stays,
but where the bytes would not fit before the end of the store it becomes 0. -/
def State.placeCode (s : State) (bytes : List Byte) : State :=
  let pc := if s.pc.toNat + bytes.length ≤ config.progSize then s.pc else 0
  { s with
    pc := pc
    status := .running
    prog := Memory.writeAll config.progFill s.prog pc.toNat bytes }

end Sys2Proof.Machine
end

