-- ==== Sys2Proof/Machine/Step.lean ====
section
/-! DEFINITION. The step function of the machine, one cycle (spec/40_cycle_and_nop.md R100, R101), and the host's way of
placing an instruction where the next step fetches it. -/

namespace Sys2Proof.Machine

/-- One step is one cycle: exactly one instruction, or the end of the run (R100). -/
def step (s : State) : Host.Outcome State Fault Refusal := cycle s

/-- The state whose next step fetches and runs the instruction numbered `w` (spec/opcode_table.json's numbering). It
stands for the load of a program (log entry 4). -/
def State.withFetchWord (s : State) (nbits w : Nat) : State := s.placeCode (wordBytes nbits w)

end Sys2Proof.Machine
end

