-- ==== Sys2Proof/Machine/Assembler.lean ====
section
/-! DEFINITION. What the spec settles of the assembler's input language (spec/30_encoding.md R78 to R83): lines, tokens,
literals, labels, and the bytes of a source. The assembler is outside the hardware block (spec/00_scope.md R4) and no
definition of the machine uses this file. What R78, R79 and R84 leave open: log entries 9 and 29 to 32. -/

namespace Sys2Proof

/-- A whitespace-delimited token (R78). -/
abbrev Token := List Char

/-- "A comment runs from `;` to the end of the line and is removed" (R78). -/
def stripComment (line : List Char) : List Char := line.takeWhile (· != ';')

/-- The characters that delimit tokens. The spec says "whitespace-delimited" and no more (R78); that they are space, tab and
carriage return and no others is a DESIGN CHOICE (log entry 30). -/
def isBlank (ch : Char) : Bool := ch == ' ' || ch == '\t' || ch == '\r'

/-- "split into whitespace-delimited tokens" (R78); `current` holds the token being read, last character first. -/
def splitTokens : Token → List Char → List Token
  | [], [] => []
  | current, [] => [current.reverse]
  | current, ch :: rest =>
    if isBlank ch then
      match current with
      | [] => splitTokens [] rest
      | _ => current.reverse :: splitTokens [] rest
    else splitTokens (ch :: current) rest

/-- The tokens of a line, comment removed (R78). -/
def lineTokens (line : List Char) : List Token := splitTokens [] (stripComment line)

/-! ## Literals (R80) -/

/-- The value of a digit in the given base; upper-case hexadecimal letters only (log entry 29). -/
def digitValue (base : Nat) (ch : Char) : Option Nat :=
  let v :=
    if '0' ≤ ch ∧ ch ≤ '9' then ch.toNat - '0'.toNat
    else if 'A' ≤ ch ∧ ch ≤ 'F' then ch.toNat - 'A'.toNat + 10
    else base
  if v < base then some v else none

/-- The number a digit string writes, most significant digit first; none where a character is no digit. -/
def digitsValue (base : Nat) : Nat → List Char → Option Nat
  | n, [] => some n
  | n, ch :: rest => (digitValue base ch).bind fun v => digitsValue base (n * base + v) rest

/-- A non-empty digit string. -/
def numeral (base : Nat) : List Char → Option Nat
  | [] => none
  | digits => digitsValue base 0 digits

/-- "decimal or `0x`-prefixed hexadecimal" (R80). -/
def immediateLiteral : Token → Option Nat
  | '0' :: 'x' :: digits => numeral 16 digits
  | digits => numeral 10 digits

/-- "`$`-prefixed hexadecimal" (R80). -/
def addressLiteral : Token → Option Nat
  | '$' :: digits => numeral 16 digits
  | _ => none

/-- A register name (R80). -/
def registerName : Token → Option Reg
  | ['A'] => some .a
  | ['B'] => some .b
  | ['C'] => some .c
  | _ => none

/-- A jump-condition keyword (R80). -/
def conditionKeyword : Token → Option Cond
  | ['Z'] => some .z
  | ['N', 'Z'] => some .nz
  | ['C'] => some .c
  | ['N', 'C'] => some .nc
  | _ => none

/-- The mnemonics (R79). -/
def mnemonicOf : Token → Option Mnemonic
  | ['N', 'O', 'P'] => some .NOP
  | ['L', 'D', 'A'] => some .LDA
  | ['L', 'D', 'B'] => some .LDB
  | ['L', 'D', 'C'] => some .LDC
  | ['S', 'T', 'A'] => some .STA
  | ['S', 'T', 'B'] => some .STB
  | ['S', 'T', 'C'] => some .STC
  | ['A', 'D', 'D'] => some .ADD
  | ['S', 'U', 'B'] => some .SUB
  | ['A', 'N', 'D'] => some .AND
  | ['O', 'R'] => some .OR
  | ['X', 'O', 'R'] => some .XOR
  | ['N', 'O', 'T'] => some .NOT
  | ['J', 'M', 'P'] => some .JMP
  | ['C', 'P'] => some .CP
  | _ => none

/-- A letter, either case: the spec's own labels have both (`L`, `loop`). -/
def isLetter (ch : Char) : Bool := ('A' ≤ ch && ch ≤ 'Z') || ('a' ≤ ch && ch ≤ 'z')

/-- A character a label's name may go on with. -/
def isNameChar (ch : Char) : Bool := isLetter ch || ('0' ≤ ch && ch ≤ '9') || ch == '_'

/-- A token that R79 or R80 gives another class. -/
def isKeyword (t : Token) : Bool :=
  (registerName t).isSome || (conditionKeyword t).isSome || (mnemonicOf t).isSome

/-- A label's name, "(a name)" and no more in R80. DESIGN CHOICE (log entry 29): a letter, then letters, digits and
underscores, and no keyword; so a token with a comma in it, whose treatment R84 leaves open, names no label. -/
def labelName (t : Token) : Option Token :=
  match t with
  | [] => none
  | ch :: rest => if isLetter ch && rest.all isNameChar && !isKeyword t then some t else none

/-! ## Lines and labels -/

/-- A parsed line: "A line yields a label definition, or one encoded instruction, or nothing" (R78). The target of a jump is
still a name. -/
inductive SourceLine where
  | empty
  | label (name : Token)
  | plain (m : Mnemonic) (operands : List SourceOperand)
  | jump (cond : Option Cond) (target : Token)
deriving DecidableEq, Repr

/-- The class of an operand that is no part of a jump (R80): "The letter `C` is a register name in a register position". -/
def classifyOperand (t : Token) : Option SourceOperand :=
  match registerName t with
  | some r => some (.reg r)
  | none =>
    match addressLiteral t with
    | some n => some (.addr n)
    | none => (immediateLiteral t).map .imm

/-- A jump's operands: a label, or a condition and a label (R82); "the carry condition in a jump-condition position"
(R80). Any other number of tokens is refused: DESIGN CHOICE (log entry 32). -/
def parseJump : List Token → Option SourceLine
  | [target] => (labelName target).map (.jump none)
  | [cond, target] => (conditionKeyword cond).bind fun k => (labelName target).map (.jump (some k))
  | _ => none

/-- A line from its tokens, mnemonic and operands each a token of its own; none is a fatal error (R83). Three points are a
DESIGN CHOICE, since R79 and R84 leave them open. A line with a comma in a token is refused (log entry 29). Operands that white
space alone separates, `ADD A B` or `JMP Z L`, are accepted (log entry 31). Tokens left after those the shape takes, and a
token too few, make the line an error (log entry 32); for a line that is no jump `selectShape` refuses them. -/
def parseTokens : List Token → Option SourceLine
  | [] => some .empty
  | head :: operands =>
    if head.getLast? = some ':' then
      match operands with
      | [] => (labelName head.dropLast).map .label
      | _ => none
    else
      match mnemonicOf head with
      | none => none
      | some .JMP => parseJump operands
      | some m => (operands.mapM classifyOperand).map (.plain m)

/-- The lines of a source, each given by its tokens; none where one is in error (R83). -/
def parseSource : List (List Token) → Option (List SourceLine)
  | [] => some []
  | tokens :: rest => (parseTokens tokens).bind fun line => (parseSource rest).map (line :: ·)

/-- The operands of a jump with its target resolved. -/
def jumpOperands (cond : Option Cond) (target : Nat) : List SourceOperand :=
  match cond with
  | none => [.label target]
  | some k => [.cond k, .label target]

/-- The bytes of a line, given what each label resolves to; none where the line is refused or its label is not defined
(log entry 29). -/
def SourceLine.bytes (resolve : Token → Option Nat) : SourceLine → Option (List Byte)
  | .empty => some []
  | .label _ => some []
  | .plain m operands => encodeLine m operands
  | .jump cond target => (resolve target).bind fun a => encodeLine .JMP (jumpOperands cond a)

/-- The number of bytes of a line, which no label changes: "label resolution never changes instruction lengths or
positions" (R81). -/
def SourceLine.size : SourceLine → Nat
  | .empty => 0
  | .label _ => 0
  | .plain m operands => ((encodeLine m operands).map List.length).getD 0
  | .jump _ _ => Opcode.jmp.length

/-- The labels of a source with their values: "the address of the instruction immediately following the label" (R81),
counting every emitted byte, CP's filler among them. `at_` is the address of the first line. -/
def labelTable : Nat → List SourceLine → List (Token × Nat)
  | _, [] => []
  | at_, .label name :: rest => (name, at_) :: labelTable at_ rest
  | at_, line :: rest => labelTable (at_ + line.size) rest

/-- The value of a label. -/
def resolveIn (table : List (Token × Nat)) (name : Token) : Option Nat :=
  (table.find? fun entry => entry.1 == name).map Prod.snd

/-- The bytes of the lines, one after the other (R76). -/
def linesBytes (resolve : Token → Option Nat) : List SourceLine → Option (List Byte)
  | [] => some []
  | line :: rest => (line.bytes resolve).bind fun bytes => (linesBytes resolve rest).map (bytes ++ ·)

/-- The image of a source: its labels are resolved, forward references too, and its lines encoded in order (R76, R81). None
where a line is refused, a label is not defined, or one is defined twice (log entry 29). -/
def assemble (lines : List SourceLine) : Option (List Byte) :=
  let table := labelTable 0 lines
  if (table.map Prod.fst).Nodup then linesBytes (resolveIn table) lines else none

end Sys2Proof
end

