-- ==== Sys2Proof/Machine/Platform.lean ====
section
/-! DEFINITION. The host's side of the machine (spec/70_reset_and_hazards.md R260 to R269): loading an image, reset, the
moves a host may make, and what it observes. No instruction calls any of it. -/

namespace Sys2Proof.Machine

/-- The program store after a load: the image from address 0 up, PROG_FILL beyond it (R263). -/
def progOfImage (image : List Byte) : Memory := Memory.writeAll config.progFill [] 0 image

/-- Reset with an image: every piece of state at its reset value, `prog` holding the image followed by fill (R260); an
image longer than PROG_SIZE is refused and no run takes place (R264). -/
def resetWith (image : List Byte) : Result :=
  if config.progSize < image.length then .refused .imageTooLong
  else .next { State.reset with prog := progOfImage image }

/-- `load(image)`: writes `prog` (R263, R266). -/
def loadImage (image : List Byte) (s : State) : Result :=
  if config.progSize < image.length then .refused .imageTooLong
  else .next { s with prog := progOfImage image }

/-- `reset()`: everything reinitialised, "nothing surviving from the first" run but the loaded program store (R260,
R266). -/
def hostReset (s : State) : State := { State.reset with prog := s.prog }

/-- The moves of a host that change state (R266); `observe` changes none. -/
inductive HostMove where
  | load (image : List Byte)
  | reset
  | step
deriving DecidableEq, Repr

/-- A host move. While `status = Running` the host makes no move other than `step` (R266, R268). -/
def hostMove (m : HostMove) (s : State) : Result :=
  match m with
  | .load image => if s.status = .running then .fault .hostMoveWhileRunning else loadImage image s
  | .reset => if s.status = .running then .fault .hostMoveWhileRunning else .next (hostReset s)
  | .step => step s

/-- `--dump`: the full data store, address 0 first (R267). -/
def State.dump (s : State) : List Byte := (List.range config.dataSize).map s.dataByte

/-- `--print`: the non-zero cells of the data store, in address order (R267). -/
def State.nonZeroCells (s : State) : List Host.Cell :=
  ((List.range config.dataSize).map fun a => (a, s.dataByte a)).filter fun cell => cell.2 != 0

end Sys2Proof.Machine
end

