-- ==== Sys2Proof/Machine/Protocol.lean ====
section
/-! DEFINITION. The cycle written out as the spec's protocol (spec/40_cycle_and_nop.md R101 to R104): the opcode byte is
read and consumed, then each operand byte by `Fetch8` or `Fetch16`, then the effect. The machine's `step` is stated to
be equal to it. -/

namespace Sys2Proof.Machine

/-- `Fetch8()` (R102): the byte at `pc` with `pc` moved past it; where `pc >= PROG_SIZE` it raises, and the error is the
state in which it raises, `pc` unchanged. -/
def State.fetch8 (s : State) : Except State (Byte × State) :=
  if config.progSize ≤ s.pc.toNat then .error s
  else .ok (s.progByte s.pc.toNat, s.advance 1)

/-- `Fetch16()` (R103): two `Fetch8()` calls, high byte first. -/
def State.fetch16 (s : State) : Except State (Addr × State) :=
  match s.fetch8 with
  | .error e => .error e
  | .ok (hi, s1) =>
    match s1.fetch8 with
    | .error e => .error e
    | .ok (lo, s2) => .ok (addrOfBytes hi lo, s2)

/-- One operand byte by `Fetch8`. -/
def fetchByte (mk : Byte → Instr) (s : State) : Except State (Instr × State) :=
  match s.fetch8 with
  | .error e => .error e
  | .ok (b1, s1) => .ok (mk b1, s1)

/-- Two operand bytes by `Fetch8`, in stream order. -/
def fetchTwoBytes (mk : Byte → Byte → Instr) (s : State) : Except State (Instr × State) :=
  match s.fetch8 with
  | .error e => .error e
  | .ok (b1, s1) => fetchByte (mk b1) s1

/-- A 16-bit address by `Fetch16`. -/
def fetchAddr (mk : Addr → Instr) (s : State) : Except State (Instr × State) :=
  match s.fetch16 with
  | .error e => .error e
  | .ok (a, s1) => .ok (mk a, s1)

/-- The operand fetches at the head of each row's pseudocode: the instruction and the state after them, or the state in
which the missing byte is due. -/
def fetchOperands (op : Opcode) (s : State) : Except State (Instr × State) :=
  match op with
  | .nop => .ok (.nop, s)
  | .ldaImm => fetchByte .ldaImm s
  | .ldaReg => fetchByte .ldaReg s
  | .sta => fetchAddr .sta s
  | .ldbImm => fetchByte .ldbImm s
  | .ldbReg => fetchByte .ldbReg s
  | .stb => fetchAddr .stb s
  | .ldcImm => fetchByte .ldcImm s
  | .ldcReg => fetchByte .ldcReg s
  | .stc => fetchAddr .stc s
  | .ldaAddr => fetchAddr .ldaAddr s
  | .addRr => fetchTwoBytes .addRr s
  | .subRr => fetchTwoBytes .subRr s
  | .addRi => fetchTwoBytes .addRi s
  | .subRi => fetchTwoBytes .subRi s
  | .andRr => fetchTwoBytes .andRr s
  | .orRr => fetchTwoBytes .orRr s
  | .xorRr => fetchTwoBytes .xorRr s
  | .notR => fetchByte .notR s
  | .jmp => fetchAddr .jmp s
  | .jmpZ => fetchAddr .jmpZ s
  | .jmpNz => fetchAddr .jmpNz s
  | .jmpC => fetchAddr .jmpC s
  | .jmpNc => fetchAddr .jmpNc s
  | .cp => fetchByte .cp s
  | .fill => .ok (.fill, s)

/-- `step()` of R101, line by line. `exec` takes the state at the opcode byte. -/
def protocolCycle (s : State) : Result :=
  if s.status ≠ .running then .next s
  else if config.progSize ≤ s.pc.toNat then .next (s.halt .haltEnd)
  else
    let op := s.progByte s.pc.toNat
    let s1 := s.advance 1
    match Opcode.ofByte op with
    | none => .next (s1.raise (.illegalOpcode s.pc op))
    | some row =>
      match fetchOperands row s1 with
      | .error s2 => .next (s2.raise (.progOutOfBounds s2.pc op))
      | .ok (i, _) => exec i s

end Sys2Proof.Machine
end

