-- ==== Sys2Proof/Safety.lean ====
section
/-! DEFINITION. The terms in which claims speak: canonical stores, the end of a run (spec/40_cycle_and_nop.md R106), an
instruction's bytes standing at the program counter, and the spec's tables of what each instruction reads and writes
(spec/10_state.md R22, R27, spec/20_memory.md R41). -/

namespace Sys2Proof.Machine

/-- Both stores have the canonical form, with no address past their size. -/
abbrev State.wf (s : State) : Prop :=
  Memory.wf config.progSize config.progFill s.prog ∧ Memory.wf config.dataSize config.initData s.data

/-- The run has ended (R106). -/
def State.ended (s : State) : Prop := s.status ≠ .running

/-- "The run is a normal completion when `status` is `HaltNop` or `HaltEnd`" (R106). -/
def State.normalCompletion (s : State) : Prop := s.status = .haltNop ∨ s.status = .haltEnd

/-- "a failed run when it is one of the four fault codes" (R106). -/
def State.failedRun (s : State) : Prop := s.status.isFault = true

/-- `bytes` stand in the program store at `pc`, all of them inside it. -/
def State.codeAt (s : State) (bytes : List Byte) : Prop :=
  s.pc.toNat + bytes.length ≤ config.progSize ∧
    ∀ (k : Nat) (h : k < bytes.length), s.progByte (s.pc.toNat + k) = bytes[k]

/-- A running core with `bytes` next. -/
def State.about (s : State) (bytes : List Byte) : Prop := s.status = .running ∧ s.codeAt bytes

/-- A running core whose next opcode byte is `op`, of an instruction `length` bytes long that the end of the program
store cuts short. -/
def State.cutShort (s : State) (op : Byte) (length : Nat) : Prop :=
  s.about [op] ∧ config.progSize < s.pc.toNat + length

/-- The faulted state of an instruction whose operand byte is missing: `pc` at PROG_SIZE, the opcode byte recorded
(R225). -/
def State.missingOperand (s : State) (op : Byte) : State :=
  { s with pc := 0x1000, status := .faultProgOutOfBounds, faultInfo := ⟨0x1000, op⟩ }

/-- The operand values a row's format takes: as many as it has fields, a register index below 3, an immediate below 256,
an address below 65536 (R61, R74). -/
def legalOperands (op : Opcode) (values : List Nat) : Prop :=
  match op.format with
  | .f0 => values = []
  | .f1i => ∃ n, values = [n] ∧ n < 256
  | .f1r => ∃ r, values = [r] ∧ r < 3
  | .f2a => ∃ a, values = [a] ∧ a < 65536
  | .f2rr => ∃ d r, values = [d, r] ∧ d < 3 ∧ r < 3
  | .f2ri => ∃ d n, values = [d, n] ∧ d < 3 ∧ n < 256

/-- The "writes" column of R22; an index byte that names no register writes none. -/
def regsWritten : Instr → List Reg
  | .ldaImm _ | .ldaReg _ | .ldaAddr _ => [.a]
  | .ldbImm _ | .ldbReg _ => [.b]
  | .ldcImm _ | .ldcReg _ => [.c]
  | .addRr d _ | .subRr d _ | .andRr d _ | .orRr d _ | .xorRr d _ => (regOfIndex d).toList
  | .addRi d _ | .subRi d _ | .notR d => (regOfIndex d).toList
  | .nop | .fill | .sta _ | .stb _ | .stc _ | .cp _ => []
  | .jmp _ | .jmpZ _ | .jmpNz _ | .jmpC _ | .jmpNc _ => []

/-- The "reads" column of R22. -/
def regsRead : Instr → List Reg
  | .ldaReg r | .ldbReg r | .ldcReg r => (regOfIndex r).toList
  | .sta _ | .cp _ => [.a]
  | .stb _ => [.b]
  | .stc _ => [.c]
  | .addRr d r | .subRr d r | .andRr d r | .orRr d r | .xorRr d r => (regOfIndex d).toList ++ (regOfIndex r).toList
  | .addRi d _ | .subRi d _ | .notR d => (regOfIndex d).toList
  | .nop | .fill | .ldaImm _ | .ldbImm _ | .ldcImm _ | .ldaAddr _ => []
  | .jmp _ | .jmpZ _ | .jmpNz _ | .jmpC _ | .jmpNc _ => []

/-- The writers of the flags: CP, and ADD and SUB in both forms (R27). -/
def writesFlags : Instr → Bool
  | .addRr _ _ | .subRr _ _ | .addRi _ _ | .subRi _ _ | .cp _ => true
  | _ => false

/-- The readers of the flags: the four conditional jumps (R27). -/
def readsFlags : Instr → Bool
  | .jmpZ _ | .jmpNz _ | .jmpC _ | .jmpNc _ => true
  | _ => false

/-- The data address an instruction stores to and the register it stores: STA, STB and STC alone have one (R41). -/
def storeOf : Instr → Option (Addr × Reg)
  | .sta addr => some (addr, .a)
  | .stb addr => some (addr, .b)
  | .stc addr => some (addr, .c)
  | _ => none

/-- The data address an instruction loads from: LDA.addr alone has one (R41). -/
def loadAddr : Instr → Option Addr
  | .ldaAddr a => some a
  | _ => none

/-- The address a jump carries (R180). -/
def jumpTarget : Instr → Option Addr
  | .jmp a | .jmpZ a | .jmpNz a | .jmpC a | .jmpNc a => some a
  | _ => none

/-- The first register-index byte of an instruction, destination before source, that names no register (R64, R228). -/
def firstBadIndex : Instr → Option Byte
  | .ldaReg r | .ldbReg r | .ldcReg r | .notR r => if 3 ≤ r.toNat then some r else none
  | .addRi d _ | .subRi d _ => if 3 ≤ d.toNat then some d else none
  | .addRr d r | .subRr d r | .andRr d r | .orRr d r | .xorRr d r =>
    if 3 ≤ d.toNat then some d else if 3 ≤ r.toNat then some r else none
  | _ => none

/-- The machine reads `bytes` as the instruction `i`: a running core with them at `pc` executes `i`, and one whose
program store ends among the operand bytes faults there, with nothing else done (R101, R225). -/
def bytesRun (bytes : List Byte) (i : Instr) : Prop :=
  (∀ s : State, s.about bytes → step s = exec i s) ∧
    ∀ (s : State) (op : Byte), bytes.head? = some op → s.cutShort op bytes.length →
      step s = .next (s.missingOperand op)

/-- What a terminal status says of the state that holds it: the table of R221 with the `pc` column of R226. -/
def State.terminalExplained (s : State) : Prop :=
  match s.status with
  | .running | .haltNop => True
  | .haltEnd => config.progSize ≤ s.pc.toNat
  | .faultIllegalOpcode =>
    0x19 ≤ s.faultInfo.byte.toNat ∧ s.faultInfo.byte.toNat ≤ 0xFE ∧ s.pc = s.faultInfo.addr + 1
  | .faultProgOutOfBounds => s.faultInfo.addr = 0x1000 ∧ s.pc = 0x1000
  | .faultDataOutOfBounds =>
    config.dataSize ≤ s.faultInfo.addr.toNat ∧ s.faultInfo.byte ∈ ([0x03, 0x06, 0x09, 0x0A] : List Byte)
  | .faultBadRegister =>
    3 ≤ s.faultInfo.byte.toNat ∧ (s.pc = s.faultInfo.addr + 2 ∨ s.pc = s.faultInfo.addr + 3)

end Sys2Proof.Machine
end

