-- ==== Sys2Proof/Certificates/Slice0/Obligations.lean ====
section
/-! DEFINITION. The statements for the provers. Where a clause rests on a decision of the spec
(spec/92_eei_decisions.md), its docstring names it. -/

open Sys2Proof Sys2Proof.Machine

/-! ## Encoding -/

/-- The round trip of R75, for every row of the opcode map (FILL too) and every legal operand tuple: the encoder gives
bytes, and decoding them gives the row and the operands back and consumes every byte, but for CP's trailing filler,
which decodes as one FILL. -/
def Obligations.EncodeRowThenDecodeRecoversRowAndOperands : Prop :=
  (∀ (op : Opcode) (values : List Nat), legalOperands op values →
    ∃ (bytes : List Byte) (i : Instr), encodeRow op values = some bytes ∧
      decode bytes = .instr i (if op = .cp then [0xFF] else []) ∧ i.opcode = op ∧ i.operandValues = values) ∧
  decode [0xFF] = .instr .fill []

/-- Decode and encode agree on every instruction, with every operand at every value its encoding admits, and on every
byte stream: bytes decode to `i` exactly when they begin with the encoding of `i`. -/
def Obligations.DecodeAnswersExactlyTheEncodedInstruction : Prop :=
  ∀ (bytes rest : List Byte) (i : Instr), decode bytes = .instr i rest ↔ bytes = encode i ++ rest

/-- The decoder looks at the first byte alone to call an instruction illegal, and does so for 0x19 to 0xFE and no other
value: the spec's decode. The other two answers are the model's choice (log entry 8), since the spec's decode reads nothing
but the first byte: with no byte there is no opcode, and a known opcode with too few bytes after it is a missing
operand. -/
def Obligations.DecoderRejectsByName : Prop :=
  (∀ (b : Byte) (bytes : List Byte), decode (b :: bytes) = .illegal b ↔ 0x19 ≤ b.toNat ∧ b.toNat ≤ 0xFE) ∧
  decode [] = .noOpcode ∧
  ∀ (op : Opcode) (bytes : List Byte),
    decode (op.toByte :: bytes) = .missingOperand op.toByte ↔ bytes.length + 1 < op.length

/-- The words of spec/95_test_vectors.md section 2.1 (vectors V1 to V26) decode to the instructions they stand for. -/
def Obligations.TestVectorWordsDecode : Prop :=
  decode [0x00] = .instr .nop [] ∧
  decode [0x01, 0x2A] = .instr (.ldaImm 0x2A) [] ∧
  decode [0x02, 0x02] = .instr (.ldaReg 2) [] ∧
  decode [0x03, 0x01, 0x23] = .instr (.sta 0x0123) [] ∧
  decode [0x04, 0x00] = .instr (.ldbImm 0x00) [] ∧
  decode [0x05, 0x00] = .instr (.ldbReg 0) [] ∧
  decode [0x06, 0x0F, 0xFF] = .instr (.stb 0x0FFF) [] ∧
  decode [0x07, 0xFF] = .instr (.ldcImm 0xFF) [] ∧
  decode [0x08, 0x01] = .instr (.ldcReg 1) [] ∧
  decode [0x09, 0x00, 0x01] = .instr (.stc 0x0001) [] ∧
  decode [0x0A, 0x00, 0x20] = .instr (.ldaAddr 0x0020) [] ∧
  decode [0x0B, 0x00, 0x01] = .instr (.addRr 0 1) [] ∧
  decode [0x0C, 0x02, 0x00] = .instr (.subRr 2 0) [] ∧
  decode [0x0D, 0x01, 0x10] = .instr (.addRi 1 0x10) [] ∧
  decode [0x0E, 0x00, 0x01] = .instr (.subRi 0 0x01) [] ∧
  decode [0x0F, 0x02, 0x01] = .instr (.andRr 2 1) [] ∧
  decode [0x10, 0x00, 0x01] = .instr (.orRr 0 1) [] ∧
  decode [0x11, 0x01, 0x01] = .instr (.xorRr 1 1) [] ∧
  decode [0x12, 0x01] = .instr (.notR 1) [] ∧
  decode [0x13, 0x01, 0x00] = .instr (.jmp 0x0100) [] ∧
  decode [0x14, 0x00, 0x40] = .instr (.jmpZ 0x0040) [] ∧
  decode [0x15, 0x00, 0x02] = .instr (.jmpNz 0x0002) [] ∧
  decode [0x16, 0x00, 0x15] = .instr (.jmpC 0x0015) [] ∧
  decode [0x17, 0x00, 0x1A] = .instr (.jmpNc 0x001A) [] ∧
  decode [0x18, 0x05] = .instr (.cp 0x05) [] ∧
  decode [0xFF] = .instr .fill []

/-- The encoder accepts exactly the operand values that fit: a register index below 3, an immediate below 256, an address
below 65536, as many as the row's format has (R74; that it refuses the rest is decision D17). -/
def Obligations.EncoderAcceptsExactlyLegalOperands : Prop :=
  ∀ (op : Opcode) (values : List Nat), (∃ bytes, encodeRow op values = some bytes) ↔ legalOperands op values

/-- A 16-bit address is the operand of the stores, LDA.addr and the five jumps and of no other row, and the byte that comes
first in the stream is its high one (R43). -/
def Obligations.AddressOperandIsHighByteFirst : Prop :=
  (∀ op : Opcode, op.format = .f2a ↔
    op ∈ [Opcode.sta, .stb, .stc, .ldaAddr, .jmp, .jmpZ, .jmpNz, .jmpC, .jmpNc]) ∧
  ∀ (op : Opcode) (hi lo : Byte) (rest : List Byte), op.format = .f2a →
    ∃ i : Instr, decode (op.toByte :: hi :: lo :: rest) = .instr i rest ∧ i.opcode = op ∧
      i.operandValues = [256 * hi.toNat + lo.toNat]

/-- Shape selection reaches every row but FILL, which has no mnemonic, and gives `LDB` and `LDC` no address form. -/
def Obligations.ShapeSelectionReachesEveryRowButFill : Prop :=
  (∀ op : Opcode, op ≠ .fill ↔ ∃ m operands values, selectShape m operands = some (op, values)) ∧
  (∀ n : Nat, selectShape .LDB [.addr n] = none ∧ selectShape .LDC [.addr n] = none)

/-- A label's value is the number of bytes emitted before it, CP's filler counted: the address of what immediately follows
it, whether the jump to it stands before or after (spec/30_encoding.md section 6). -/
def Obligations.AssembledLabelIsTheAddressThatFollowsIt : Prop :=
  ∀ (before after : List SourceLine) (name : Token) (bytes : List Byte),
    assemble (before ++ .label name :: after) = some bytes →
    ∃ front back : List Byte, bytes = front ++ back ∧
      resolveIn (labelTable 0 (before ++ .label name :: after)) name = some front.length ∧
      linesBytes (resolveIn (labelTable 0 (before ++ .label name :: after))) before = some front ∧
      linesBytes (resolveIn (labelTable 0 (before ++ .label name :: after))) after = some back

/-! ## The cycle -/

/-- A step runs the decoded instruction: when the bytes at the program counter decode to `i`, well-formed or not, the
step of a running core is `exec i` at that same state, with nothing around it (`exec` moves `pc` itself: log entry 1). -/
def Obligations.StepRunsDecodedInstruction : Prop :=
  ∀ (s : State) (i : Instr) (rest : List Byte), s.status = .running → decode s.window = .instr i rest →
    step s = exec i s

/-- A running core with the encoding of an instruction at `pc`, inside the program store, executes that instruction. -/
def Obligations.StepRunsEncodedInstructionAtPc : Prop :=
  ∀ (s : State) (i : Instr), s.about (encode i) → step s = exec i s

/-- The machine's step is the cycle of R101, written byte by byte with `Fetch8` and `Fetch16` (Machine/Protocol.lean). In it
the operand bytes are all fetched before the instruction executes, and `exec` is handed the state at the opcode byte, where
the spec's rules start at `pc0 + 1` and fetch on the way: log entry 1. -/
def Obligations.StepIsTheFetchProtocol : Prop :=
  ∀ s : State, step s = protocolCycle s

/-- What the operand fetches do (R102, R103, R104): they consume exactly the row's operand bytes and change nothing but
`pc`; or they stop where the next operand byte is at or past PROG_SIZE, with the bytes before it consumed. -/
def Obligations.OperandFetchConsumesTheRowsOperandBytes : Prop :=
  ∀ (op : Opcode) (s : State),
    (∃ i, fetchOperands op s = .ok (i, s.advance (op.length - 1)) ∧ i.opcode = op) ∨
    (∃ k, k + 1 < op.length ∧ fetchOperands op s = .error (s.advance k) ∧ 4096 ≤ (s.advance k).pc.toNat)

/-- A core that is not Running never changes again, however many steps are taken (R105, R232; decision D16). -/
def Obligations.StoppedCoreNeverChanges : Prop :=
  ∀ (n : Nat) (s : State), s.ended → core.run n s = .next s

/-- The step function is total on next states: no state makes the model stop. -/
def Obligations.StepAlwaysAnswersANextState : Prop :=
  ∀ s : State, ∃ t : State, step s = .next t

/-- HaltEnd (R223): at the head of a cycle with `pc` at or past PROG_SIZE the run stops, and nothing but `status`
changes; `pc` reaches PROG_SIZE in a run by an instruction whose last byte is the last of the store (or by a jump there),
and exceeds it only by a taken jump whose target is above it. -/
def Obligations.EndOfProgramStoreStopsTheRun : Prop :=
  (∀ s : State, s.status = .running → 4096 ≤ s.pc.toNat → step s = .next { s with status := .haltEnd }) ∧
  (∀ s t : State, s.status = .running → s.pc.toNat ≤ 4096 → step s = .next t → 4096 < t.pc.toNat →
    ∃ i rest, decode s.window = .instr i rest ∧ jumpTarget i = some t.pc) ∧
  (∀ s t : State, s.status = .running → s.pc.toNat < 4096 → step s = .next t → t.status = .running →
    t.pc.toNat = 4096 → ∃ i rest, decode s.window = .instr i rest ∧
      (s.pc.toNat + i.length = 4096 ∨ jumpTarget i = some t.pc))

/-- Every opcode byte from 0x19 to 0xFE faults alike: the byte is consumed, `status` and `fault_info` are written and
nothing else changes (R68, R224). -/
def Obligations.IllegalOpcodeFaults : Prop :=
  ∀ (s : State) (op : Byte), s.about [op] → 0x19 ≤ op.toNat → op.toNat ≤ 0xFE →
    step s = .next { s with pc := s.pc + 1, status := .faultIllegalOpcode, faultInfo := ⟨s.pc, op⟩ }

/-- An instruction the end of the program store cuts short faults with `pc` and the recorded address at PROG_SIZE and no
other effect, whatever its operand bytes so far (R225). -/
def Obligations.MissingOperandFaults : Prop :=
  ∀ (s : State) (op : Opcode), s.cutShort op.toByte op.length →
    step s = .next { s with pc := 0x1000, status := .faultProgOutOfBounds, faultInfo := ⟨0x1000, op.toByte⟩ }

/-! ## Invariants and whole-machine rules -/

/-- Both stores have their canonical form at reset. -/
def Obligations.ResetStoresAreCanonical : Prop := State.reset.wf

/-- Every step keeps both stores canonical, with no address past their size. -/
def Obligations.StepKeepsStoresCanonical : Prop :=
  ∀ s t : State, s.wf → step s = .next t → t.wf

/-- Stores are never seen by instruction fetch: over any number of steps the program store is exactly what it was (R53). -/
def Obligations.ProgramStoreNeverChangesDuringARun : Prop :=
  ∀ (n : Nat) (s t : State), core.run n s = .next t → t.prog = s.prog ∧ ∀ a, t.progByte a = s.progByte a

/-- At reset the status explains the state (it is Running). -/
def Obligations.ResetStatusIsExplained : Prop := State.reset.terminalExplained ∧ State.reset.status = .running

/-- Every step keeps what a terminal status says of the state: the recorded pair and `pc` are those of the table of R221
and R226 (decisions D9, D10). -/
def Obligations.StepKeepsTerminalStatusExplained : Prop :=
  ∀ s t : State, s.terminalExplained → step s = .next t → t.terminalExplained

/-- `fault_info` is written only by a step that sets a fault status; a stop does not write it (R29, decision D9). -/
def Obligations.FaultInfoIsWrittenOnlyByFaults : Prop :=
  ∀ s t : State, step s = .next t → (t.status.isFault = false ∨ s.status ≠ .running) → t.faultInfo = s.faultInfo

/-- Faults and stops are precise: a step that ends the run writes no register, flag or data byte, and leaves `pc` where
the fetch protocol had it (R226, decision D10). -/
def Obligations.EndingStepIsPrecise : Prop :=
  ∀ s t : State, s.status = .running → step s = .next t → t.status ≠ .running →
    (∀ r, t.get r = s.get r) ∧ t.flags = s.flags ∧ t.data = s.data ∧ t.prog = s.prog ∧
    (match t.status with
      | .running => False
      | .haltNop => t.pc = s.pc + 1
      | .haltEnd => t.pc = s.pc
      | .faultIllegalOpcode => t.pc = s.pc + 1
      | .faultProgOutOfBounds => t.pc = 0x1000
      | .faultDataOutOfBounds => t.pc = s.pc + 3
      | .faultBadRegister => t.pc = s.pc + 2 ∨ t.pc = s.pc + 3)

/-- The table of R22 is exhaustive: an instruction writes no register outside its "writes" column, and its outcome depends
on no register outside its "reads" column. -/
def Obligations.RegisterReadAndWriteTableIsExhaustive : Prop :=
  (∀ (i : Instr) (s t : State) (r : Reg), exec i s = .next t → r ∉ regsWritten i → t.get r = s.get r) ∧
  (∀ (i : Instr) (s t t' : State) (r : Reg) (v : Byte), r ∉ regsRead i → exec i s = .next t →
    exec i (s.set r v) = .next t' →
    t'.pc = t.pc ∧ t'.flags = t.flags ∧ t'.status = t.status ∧ t'.faultInfo = t.faultInfo ∧ t'.prog = t.prog ∧
      t'.data = t.data ∧ (∀ q, q ≠ r → t'.get q = t.get q) ∧
      (r ∈ regsWritten i → t.status.isFault = false → t'.get r = t.get r))

/-- Flags are written by CP, ADD and SUB alone and read by the conditional jumps alone (R27; that the bitwise
instructions are not among the writers is decision D7). -/
def Obligations.FlagReadersAndWritersAreExhaustive : Prop :=
  (∀ (i : Instr) (s t : State), exec i s = .next t → writesFlags i = false → t.flags = s.flags) ∧
  (∀ (i : Instr) (s t t' : State) (f : Flags), readsFlags i = false → exec i s = .next t →
    exec i (s.setFlags f) = .next t' →
    t'.setFlags t.flags = t ∧ (writesFlags i = true → t.status.isFault = false → t'.flags = t.flags))

/-- Which accesses reach which store (R41): after an instruction each data byte is the register a store put there or what
it was; only LDA.addr depends on the data store; no instruction writes the program store, and none depends on it but
through the bytes its fetch reads at `pc`. -/
def Obligations.StoreAccessesAreExhaustive : Prop :=
  (∀ (i : Instr) (s t : State), s.wf → exec i s = .next t → ∀ a, a < 4096 → t.dataByte a =
    match storeOf i with
    | some (addr, r) => if addr.toNat = a then s.get r else s.dataByte a
    | none => s.dataByte a) ∧
  (∀ (i : Instr) (s t t' : State) (m : Memory), loadAddr i = none → exec i s = .next t →
    exec i { s with data := m } = .next t' → { t' with data := t.data } = t) ∧
  (∀ (s t : State), step s = .next t → t.prog = s.prog) ∧
  (∀ (s t : State) (m : Memory), ({ s with prog := m } : State).window = s.window → step s = .next t →
    step { s with prog := m } = .next { t with prog := m })

/-- `pc` "advances by exactly the byte-length of the instruction just consumed, except when a taken jump overwrites it
with an absolute 16-bit target"; a conditional jump not taken advances it by 3 (R24). -/
def Obligations.PcAdvancesByLengthUnlessAJumpIsTaken : Prop :=
  (∀ (i : Instr) (s t : State), jumpTarget i = none → exec i s = .next t →
    t.pc = s.pc + BitVec.ofNat 16 i.length) ∧
  (∀ (a : Addr) (s : State), ∃ t, exec (.jmp a) s = .next t ∧ t.pc = a) ∧
  (∀ (a : Addr) (s : State), ∃ t, exec (.jmpZ a) s = .next t ∧ t.pc = if s.flags.zero then a else s.pc + 3) ∧
  (∀ (a : Addr) (s : State), ∃ t, exec (.jmpNz a) s = .next t ∧ t.pc = if s.flags.zero then s.pc + 3 else a) ∧
  (∀ (a : Addr) (s : State), ∃ t, exec (.jmpC a) s = .next t ∧ t.pc = if s.flags.carry then a else s.pc + 3) ∧
  (∀ (a : Addr) (s : State), ∃ t, exec (.jmpNc a) s = .next t ∧ t.pc = if s.flags.carry then s.pc + 3 else a)

/-- The three registers are numbered A = 0, B = 1, C = 2, none is hardwired (a write of any value reads back), and a write
to one never changes another (R21). -/
def Obligations.RegistersAreIndependentAndNumbered : Prop :=
  (∀ (s : State) (r q : Reg) (v : Byte), (s.set r v).get q = if q = r then v else s.get q) ∧
  (∀ s : State, s.get .a = s.a ∧ s.get .b = s.b ∧ s.get .c = s.c) ∧
  regOfIndex 0 = some .a ∧ regOfIndex 1 = some .b ∧ regOfIndex 2 = some .c

/-! ## NOP and FILL -/

/-- NOP (R107, R222): `status` becomes HaltNop and `pc` is past the opcode; nothing else changes. -/
def Obligations.NopStopsTheRun : Prop :=
  (∀ s : State, exec .nop s = .next { s with pc := s.pc + 1, status := .haltNop }) ∧ bytesRun [0x00] .nop

/-- FILL (R202): nothing but `pc` changes. -/
def Obligations.FillOnlyAdvancesPc : Prop :=
  (∀ s : State, exec .fill s = .next { s with pc := s.pc + 1 }) ∧ bytesRun [0xFF] .fill

/-! ## Loads and stores -/

/-- LDA.imm, LDB.imm, LDC.imm (R120, R121, R122): the immediate goes to the register the opcode fixes; nothing else but
`pc` changes, no flag among it; and the bytes are those of the assembler form. -/
def Obligations.LoadImmediateWritesItsRegister : Prop :=
  (∀ (n : Byte) (s : State), exec (.ldaImm n) s = .next { s with a := n, pc := s.pc + 2 }) ∧
  (∀ (n : Byte) (s : State), exec (.ldbImm n) s = .next { s with b := n, pc := s.pc + 2 }) ∧
  (∀ (n : Byte) (s : State), exec (.ldcImm n) s = .next { s with c := n, pc := s.pc + 2 }) ∧
  (∀ n : Byte, bytesRun [0x01, n] (.ldaImm n) ∧ bytesRun [0x04, n] (.ldbImm n) ∧ bytesRun [0x07, n] (.ldcImm n)) ∧
  ∀ n : Byte, encodeLine .LDA [.imm n.toNat] = some [0x01, n] ∧ encodeLine .LDB [.imm n.toNat] = some [0x04, n] ∧
    encodeLine .LDC [.imm n.toNat] = some [0x07, n]

/-- LDA.reg, LDB.reg, LDC.reg from a register: the source register is copied to the register the opcode fixes; nothing
else but `pc` changes. (An index byte of 3 or more: BadRegisterFaults.) -/
def Obligations.LoadRegisterCopiesTheSource : Prop :=
  (∀ (i : Byte) (r : Reg) (s : State), regOfIndex i = some r →
    exec (.ldaReg i) s = .next { s with a := s.get r, pc := s.pc + 2 } ∧
    exec (.ldbReg i) s = .next { s with b := s.get r, pc := s.pc + 2 } ∧
    exec (.ldcReg i) s = .next { s with c := s.get r, pc := s.pc + 2 }) ∧
  ∀ i : Byte, bytesRun [0x02, i] (.ldaReg i) ∧ bytesRun [0x05, i] (.ldbReg i) ∧ bytesRun [0x08, i] (.ldcReg i)

/-- STA, STB, STC (R126, R127, R128): to an address inside the data store, the byte there becomes the register the opcode
fixes, every other data byte stays, and nothing else but `pc` changes; to an address past it the instruction raises
DataOutOfBounds with nothing stored; and the bytes are those of the assembler form. -/
def Obligations.StoreWritesOneDataByte : Prop :=
  (∀ (addr : Addr) (s : State), s.wf → addr.toNat < 4096 →
    (∃ t, exec (.sta addr) s = .next t ∧ t.dataByte addr.toNat = s.a ∧
      (∀ x, x ≠ addr.toNat → t.dataByte x = s.dataByte x) ∧ { t with data := s.data } = { s with pc := s.pc + 3 }) ∧
    (∃ t, exec (.stb addr) s = .next t ∧ t.dataByte addr.toNat = s.b ∧
      (∀ x, x ≠ addr.toNat → t.dataByte x = s.dataByte x) ∧ { t with data := s.data } = { s with pc := s.pc + 3 }) ∧
    (∃ t, exec (.stc addr) s = .next t ∧ t.dataByte addr.toNat = s.c ∧
      (∀ x, x ≠ addr.toNat → t.dataByte x = s.dataByte x) ∧ { t with data := s.data } = { s with pc := s.pc + 3 })) ∧
  (∀ (addr : Addr) (s : State), 4096 ≤ addr.toNat →
    exec (.sta addr) s =
      .next { s with pc := s.pc + 3, status := .faultDataOutOfBounds, faultInfo := ⟨addr, 0x03⟩ } ∧
    exec (.stb addr) s =
      .next { s with pc := s.pc + 3, status := .faultDataOutOfBounds, faultInfo := ⟨addr, 0x06⟩ } ∧
    exec (.stc addr) s =
      .next { s with pc := s.pc + 3, status := .faultDataOutOfBounds, faultInfo := ⟨addr, 0x09⟩ }) ∧
  ∀ hi lo : Byte,
    bytesRun [0x03, hi, lo] (.sta (BitVec.ofNat 16 (256 * hi.toNat + lo.toNat))) ∧
    bytesRun [0x06, hi, lo] (.stb (BitVec.ofNat 16 (256 * hi.toNat + lo.toNat))) ∧
    bytesRun [0x09, hi, lo] (.stc (BitVec.ofNat 16 (256 * hi.toNat + lo.toNat))) ∧
    encodeLine .STA [.addr (256 * hi.toNat + lo.toNat)] = some [0x03, hi, lo] ∧
    encodeLine .STB [.addr (256 * hi.toNat + lo.toNat)] = some [0x06, hi, lo] ∧
    encodeLine .STC [.addr (256 * hi.toNat + lo.toNat)] = some [0x09, hi, lo]

/-- LDA.addr (R129): A becomes the data byte at the address, nothing else but `pc` changes; past the data store it raises
DataOutOfBounds with A unchanged. -/
def Obligations.LoadFromAddressReadsOneDataByte : Prop :=
  (∀ (addr : Addr) (s : State), addr.toNat < 4096 →
    exec (.ldaAddr addr) s = .next { s with a := s.dataByte addr.toNat, pc := s.pc + 3 }) ∧
  (∀ (addr : Addr) (s : State), 4096 ≤ addr.toNat →
    exec (.ldaAddr addr) s =
      .next { s with pc := s.pc + 3, status := .faultDataOutOfBounds, faultInfo := ⟨addr, 0x0A⟩ }) ∧
  ∀ hi lo : Byte, bytesRun [0x0A, hi, lo] (.ldaAddr (BitVec.ofNat 16 (256 * hi.toNat + lo.toNat)))

/-- A load gives the last byte stored: STA, then any one instruction that does not store to the address, then LDA.addr
from it. -/
def Obligations.LoadAnswersTheLastStoredByte : Prop :=
  ∀ (addr : Addr) (s t u v : State) (i : Instr), s.wf → addr.toNat < 4096 → exec (.sta addr) s = .next t →
    exec i t = .next u → (∀ x, storeOf i = some x → x.1 ≠ addr) → exec (.ldaAddr addr) u = .next v → v.a = s.a

/-- A data access at or past DATA_SIZE faults, with no byte read or written, no wrap of the address, and the destination
register unwritten; and no other step of a running core raises this fault (R46, R227). -/
def Obligations.DataAccessOutOfBoundsFaults : Prop :=
  (∀ (addr : Addr) (s : State), 4096 ≤ addr.toNat →
    ∀ i ∈ [Instr.sta addr, .stb addr, .stc addr, .ldaAddr addr],
      exec i s = .next { s with
        pc := s.pc + 3, status := .faultDataOutOfBounds, faultInfo := ⟨addr, i.opcode.toByte⟩ }) ∧
  ∀ s t : State, s.status = .running → step s = .next t → t.status = .faultDataOutOfBounds →
    ∃ addr rest i, decode s.window = .instr i rest ∧ i ∈ [Instr.sta addr, .stb addr, .stc addr, .ldaAddr addr] ∧
      4096 ≤ addr.toNat

/-! ## Arithmetic -/

/-- ADD.rr and ADD.ri: the target becomes the sum modulo 256 and both flags are assigned, Z for a zero byte and CY for a
sum above 255; nothing else but `pc` changes (R140, R141; the wrap is decision D4, the flag values decision D3). -/
def Obligations.AddWritesSumAndBothFlags : Prop :=
  (∀ (d q : Byte) (i j : Reg) (s : State), regOfIndex d = some i → regOfIndex q = some j →
    exec (.addRr d q) s = .next (({ s with
      pc := s.pc + 3
      flags := ⟨decide (((s.get i).toNat + (s.get j).toNat) % 256 = 0),
                decide (255 < (s.get i).toNat + (s.get j).toNat)⟩ } : State).set i
        (BitVec.ofNat 8 ((s.get i).toNat + (s.get j).toNat)))) ∧
  (∀ (d n : Byte) (i : Reg) (s : State), regOfIndex d = some i →
    exec (.addRi d n) s = .next (({ s with
      pc := s.pc + 3
      flags := ⟨decide (((s.get i).toNat + n.toNat) % 256 = 0), decide (255 < (s.get i).toNat + n.toNat)⟩ } : State).set i
        (BitVec.ofNat 8 ((s.get i).toNat + n.toNat)))) ∧
  ∀ d q : Byte, bytesRun [0x0B, d, q] (.addRr d q) ∧ bytesRun [0x0D, d, q] (.addRi d q)

/-- SUB.rr and SUB.ri: the target becomes target minus right operand modulo 256 and both flags are assigned, Z for equal
operands and CY for a borrow; nothing else but `pc` changes (R140, R141; wrap and operand order are decision D4, the
flag values decision D3). -/
def Obligations.SubWritesDifferenceAndBothFlags : Prop :=
  (∀ (d q : Byte) (i j : Reg) (s : State), regOfIndex d = some i → regOfIndex q = some j →
    exec (.subRr d q) s = .next (({ s with
      pc := s.pc + 3
      flags := ⟨decide (s.get i = s.get j), decide ((s.get i).toNat < (s.get j).toNat)⟩ } : State).set i
        (BitVec.ofNat 8 ((s.get i).toNat + 256 - (s.get j).toNat)))) ∧
  (∀ (d n : Byte) (i : Reg) (s : State), regOfIndex d = some i →
    exec (.subRi d n) s = .next (({ s with
      pc := s.pc + 3
      flags := ⟨decide (s.get i = n), decide ((s.get i).toNat < n.toNat)⟩ } : State).set i
        (BitVec.ofNat 8 ((s.get i).toNat + 256 - n.toNat)))) ∧
  ∀ d q : Byte, bytesRun [0x0C, d, q] (.subRr d q) ∧ bytesRun [0x0E, d, q] (.subRi d q)

/-- The corner table of R146: operation, target, right operand, result, Z, CY (decisions D3, D4). -/
def Obligations.ArithmeticCornerTable : Prop :=
  ∀ row ∈ ([(.add, 0x05, 0x02, 0x07, false, false), (.add, 0x00, 0x00, 0x00, true, false),
      (.add, 0xFF, 0x01, 0x00, true, true), (.add, 0xFF, 0xFF, 0xFE, false, true),
      (.add, 0x80, 0x80, 0x00, true, true), (.add, 0x7F, 0x01, 0x80, false, false),
      (.add, 0xCF, 0x40, 0x0F, false, true), (.sub, 0x07, 0x05, 0x02, false, false),
      (.sub, 0x05, 0x05, 0x00, true, false), (.sub, 0x03, 0x05, 0xFE, false, true),
      (.sub, 0x00, 0x01, 0xFF, false, true), (.sub, 0x00, 0x00, 0x00, true, false),
      (.sub, 0x00, 0xFF, 0x01, false, true), (.sub, 0xFF, 0xFF, 0x00, true, false),
      (.sub, 0x80, 0x01, 0x7F, false, false)] : List (ArithOp × Byte × Byte × Byte × Bool × Bool)),
    arithResult row.1 row.2.1 row.2.2.1 = row.2.2.2.1 ∧
    config.arithFlags row.1 row.2.1 row.2.2.1 = ⟨row.2.2.2.2.1, row.2.2.2.2.2⟩

/-- After a subtraction or a compare Z and CY are never both set; after an addition they can be (R146, R201). -/
def Obligations.ZeroAndCarryTogetherOnlyAfterAdd : Prop :=
  (∀ a b : Byte, ¬((config.arithFlags .sub a b).zero = true ∧ (config.arithFlags .sub a b).carry = true)) ∧
  (∀ a n : Byte, ¬((compareFlags a n).zero = true ∧ (compareFlags a n).carry = true)) ∧
  ∃ a b : Byte, config.arithFlags .add a b = ⟨true, true⟩

/-- `SUB A,n` and `CP n` from the same state leave the same flags, and CP leaves A alone (spec/95_test_vectors.md section
2.4). -/
def Obligations.SubtractAndCompareLeaveTheSameFlags : Prop :=
  ∀ (n : Byte) (s : State), ∃ t u, exec (.subRi 0 n) s = .next t ∧ exec (.cp n) s = .next u ∧
    t.flags = u.flags ∧ u.a = s.a

/-! ## Bitwise -/

/-- AND, OR, XOR: the target becomes the bitwise result of target and right operand, both read before the write; nothing
else but `pc` changes, no flag among it (R160 to R163; the operand roles are decision D6, the flags decision D7). -/
def Obligations.BitwiseWritesTargetOnly : Prop :=
  (∀ (d q : Byte) (i j : Reg) (s : State), regOfIndex d = some i → regOfIndex q = some j →
    exec (.andRr d q) s = .next (({ s with pc := s.pc + 3 } : State).set i (s.get i &&& s.get j)) ∧
    exec (.orRr d q) s = .next (({ s with pc := s.pc + 3 } : State).set i (s.get i ||| s.get j)) ∧
    exec (.xorRr d q) s = .next (({ s with pc := s.pc + 3 } : State).set i (s.get i ^^^ s.get j))) ∧
  ∀ d q : Byte,
    bytesRun [0x0F, d, q] (.andRr d q) ∧ bytesRun [0x10, d, q] (.orRr d q) ∧ bytesRun [0x11, d, q] (.xorRr d q)

/-- NOT: the register becomes 255 minus what it held; nothing else but `pc` changes (R164; the operand role is decision
D6, the flags decision D7). -/
def Obligations.NotComplementsItsRegister : Prop :=
  (∀ (d : Byte) (i : Reg) (s : State), regOfIndex d = some i →
    exec (.notR d) s = .next (({ s with pc := s.pc + 2 } : State).set i (BitVec.ofNat 8 (255 - (s.get i).toNat)))) ∧
  ∀ d : Byte, bytesRun [0x12, d] (.notR d)

/-! ## Bad register indices -/

/-- The register-index byte is validated after the whole instruction has been consumed, destination before source: the
first index that names no register faults, with nothing else written; and an instruction is well-formed exactly when it
has no such index (R64, R228, decision D8). -/
def Obligations.BadRegisterFaults : Prop :=
  (∀ (i : Instr) (s : State) (b : Byte), firstBadIndex i = some b →
    exec i s = .next { s with
      pc := s.pc + BitVec.ofNat 16 (encode i).length, status := .faultBadRegister, faultInfo := ⟨s.pc, b⟩ }) ∧
  (∀ i : Byte, regOfIndex i = none ↔ 3 ≤ i.toNat) ∧
  ∀ i : Instr, i.wellFormed = true ↔ firstBadIndex i = none

/-! ## Jumps -/

/-- The five jumps (R180 to R182, and the rules of the other three): `pc` becomes the 16-bit target, whatever its value,
where the one flag the opcode names has the value it names (always for JMP), else it passes the instruction; nothing else
changes; and the bytes are those of the assembler form. -/
def Obligations.JumpsLoadPcWhereTheirConditionHolds : Prop :=
  (∀ (t : Addr) (s : State), exec (.jmp t) s = .next { s with pc := t }) ∧
  (∀ (t : Addr) (s : State), exec (.jmpZ t) s = .next { s with pc := if s.flags.zero then t else s.pc + 3 }) ∧
  (∀ (t : Addr) (s : State), exec (.jmpNz t) s = .next { s with pc := if s.flags.zero then s.pc + 3 else t }) ∧
  (∀ (t : Addr) (s : State), exec (.jmpC t) s = .next { s with pc := if s.flags.carry then t else s.pc + 3 }) ∧
  (∀ (t : Addr) (s : State), exec (.jmpNc t) s = .next { s with pc := if s.flags.carry then s.pc + 3 else t }) ∧
  ∀ hi lo : Byte,
    bytesRun [0x13, hi, lo] (.jmp (BitVec.ofNat 16 (256 * hi.toNat + lo.toNat))) ∧
    bytesRun [0x14, hi, lo] (.jmpZ (BitVec.ofNat 16 (256 * hi.toNat + lo.toNat))) ∧
    bytesRun [0x15, hi, lo] (.jmpNz (BitVec.ofNat 16 (256 * hi.toNat + lo.toNat))) ∧
    bytesRun [0x16, hi, lo] (.jmpC (BitVec.ofNat 16 (256 * hi.toNat + lo.toNat))) ∧
    bytesRun [0x17, hi, lo] (.jmpNc (BitVec.ofNat 16 (256 * hi.toNat + lo.toNat))) ∧
    encodeLine .JMP [.label (256 * hi.toNat + lo.toNat)] = some [0x13, hi, lo] ∧
    encodeLine .JMP [.cond .z, .label (256 * hi.toNat + lo.toNat)] = some [0x14, hi, lo] ∧
    encodeLine .JMP [.cond .nz, .label (256 * hi.toNat + lo.toNat)] = some [0x15, hi, lo] ∧
    encodeLine .JMP [.cond .c, .label (256 * hi.toNat + lo.toNat)] = some [0x16, hi, lo] ∧
    encodeLine .JMP [.cond .nc, .label (256 * hi.toNat + lo.toNat)] = some [0x17, hi, lo]

/-- A jump to a target at or past PROG_SIZE is no fault: the next cycle stops the run as HaltEnd with `pc` at the target
(R186, decision D14). -/
def Obligations.JumpPastTheStoreStopsOneCycleLater : Prop :=
  ∀ (s : State) (hi lo : Byte), s.about [0x13, hi, lo] → 4096 ≤ 256 * hi.toNat + lo.toNat →
    ∃ t, step s = .next t ∧ t = { s with pc := BitVec.ofNat 16 (256 * hi.toNat + lo.toNat) } ∧
      step t = .next { t with status := .haltEnd }

/-! ## Compare -/

/-- CP (R200): both flags are assigned from A and the immediate as unsigned values; nothing else but `pc` changes, A among
it (that the compare is unsigned is decision D5; that CP is two bytes long, decision D13). -/
def Obligations.CompareAssignsBothFlags : Prop :=
  (∀ (n : Byte) (s : State), exec (.cp n) s = .next { s with
    pc := s.pc + 2, flags := ⟨decide (s.a = n), decide (s.a.toNat < n.toNat)⟩ }) ∧
  ∀ n : Byte, bytesRun [0x18, n] (.cp n)

/-- The flag outcome of a compare: equal sets Zero alone, greater clears both, less sets Carry alone, from any flags
before (R201). -/
def Obligations.CompareOutcomeIsOneOfThree : Prop :=
  ∀ (n : Byte) (s : State), ∃ t, exec (.cp n) s = .next t ∧
    (s.a.toNat = n.toNat → t.flags = ⟨true, false⟩) ∧
    (n.toNat < s.a.toNat → t.flags = ⟨false, false⟩) ∧
    (s.a.toNat < n.toNat → t.flags = ⟨false, true⟩) ∧
    t.flags ≠ ⟨true, true⟩

/-- `CP n` as the reference assembler emits it, `18 nn FF`, takes two cycles: CP, then FILL, which leaves the flags CP set
(R73, R203; decision D13). -/
def Obligations.CompareWithFillerTakesTwoCycles : Prop :=
  ∀ (s : State) (n : Byte), encodeRow .cp [n.toNat] = some [0x18, n, 0xFF] ∧
    (s.about [0x18, n, 0xFF] → ∃ t, step s = .next t ∧
      t = { s with pc := s.pc + 2, flags := compareFlags s.a n } ∧ step t = .next { t with pc := s.pc + 3 })

/-! ## Reset and the host -/

/-- The reset values of R34: `pc`, `status` and `fault_info`, registers, flags and data all zero (decisions D1, D2). -/
def Obligations.ResetStateHasTheResetValues : Prop :=
  State.reset.pc = 0 ∧ (∀ r, State.reset.get r = 0) ∧ State.reset.flags = ⟨false, false⟩ ∧
  State.reset.status = .running ∧ State.reset.faultInfo = ⟨0, 0⟩ ∧ ∀ a, State.reset.dataByte a = 0

/-- Reset with an image of at most PROG_SIZE bytes puts the image at address 0 and the fill 0x00 beyond it, every other
piece of state at its reset value, both stores canonical; a longer image is refused (R260, R263, R264; decisions D11,
D12). -/
def Obligations.ResetWithImageLoadsItAtZero : Prop :=
  (∀ image : List Byte, image.length ≤ 4096 → ∃ s, resetWith image = .next s ∧ s.wf ∧
    (∀ (a : Nat) (h : a < image.length), s.progByte a = image[a]) ∧
    (∀ a, image.length ≤ a → s.progByte a = 0x00) ∧
    { s with prog := [] } = State.reset) ∧
  ∀ image : List Byte, 4096 < image.length → resetWith image = .refused .imageTooLong

/-- Execution begins with the fetch of the opcode at program-store address 0, the first byte of the image (R261). -/
def Obligations.ExecutionBeginsWithTheFirstImageByte : Prop :=
  ∀ (image : List Byte) (b : Byte) (s : State), image.head? = some b → resetWith image = .next s →
    s.pc = 0x0000 ∧ s.window.head? = some b ∧ s.status = .running ∧
      ∀ (i : Instr) (rest : List Byte), image = encode i ++ rest → step s = exec i s

/-- The moves of a host: while Running it neither loads nor resets; a step is the machine's step; a load writes the
program store alone; a reset reinitialises everything but the loaded program store (R266, R268; decision D15). -/
def Obligations.HostMovesOnlyAStoppedCore : Prop :=
  (∀ (s : State) (image : List Byte), s.status = .running →
    hostMove (.load image) s = .fault .hostMoveWhileRunning ∧ hostMove .reset s = .fault .hostMoveWhileRunning) ∧
  (∀ s : State, hostMove .step s = step s) ∧
  (∀ (s : State) (image : List Byte), s.ended → image.length ≤ 4096 →
    ∃ t, hostMove (.load image) s = .next t ∧ { t with prog := s.prog } = s ∧
      (∀ (a : Nat) (h : a < image.length), t.progByte a = image[a]) ∧ ∀ a, image.length ≤ a → t.progByte a = 0x00) ∧
  ∀ s : State, s.ended → hostMove .reset s = .next { State.reset with prog := s.prog }

/-- The cells `--print` lists are exactly the listed cells of a canonical data store, in order: equal memories are equal
data (R267). -/
def Obligations.NonZeroCellsAreTheListedCells : Prop :=
  ∀ s : State, s.wf → s.nonZeroCells = s.data
end

