-- ==== Sys2Proof/Laws/Decode.lean ====
section
/-! SUPPORT. The small lemmas of the decode and encode lookups. -/

namespace Sys2Proof

/-- The opcode map is one-to-one: a row's own byte selects it. -/
@[simp] theorem Opcode.ofByte_toByte (op : Opcode) : Opcode.ofByte op.toByte = some op := by
  cases op <;> decide

/-- A byte that selects a row is that row's byte. -/
theorem Opcode.toByte_of_ofByte {b : Byte} {op : Opcode} (h : Opcode.ofByte b = some op) : op.toByte = b := by
  unfold Opcode.ofByte at h
  simpa using List.find?_some h

/-- Decoding bytes that begin with a row's opcode byte takes that row's operands. -/
theorem decode_cons (op : Opcode) (bs : List Byte) : decode (op.toByte :: bs) =
    match op.takeOperands bs with
    | none => .missingOperand op.toByte
    | some (i, rest) => .instr i rest := by
  rcases h : op.takeOperands bs with _ | ⟨i, rest⟩ <;> simp [decode, h]

/-- Every row is 1 to 3 bytes long (R60). -/
theorem Opcode.length_bounds (op : Opcode) : 1 ≤ op.length ∧ op.length ≤ maxLength := by
  cases op <;> decide

/-- The address two bytes make, as a number (R43). -/
theorem addrOfBytes_toNat (hi lo : Byte) : (addrOfBytes hi lo).toNat = 256 * hi.toNat + lo.toNat := by
  have := lo.isLt
  simp only [addrOfBytes, BitVec.toNat_append]
  rw [Nat.shiftLeft_eq, ← Nat.mul_comm (2 ^ 8) hi.toNat, ← Nat.two_pow_add_eq_or_of_lt this]

/-- Splitting an address into its bytes and joining them gives it back. -/
@[simp] theorem addrOfBytes_split (a : Addr) : addrOfBytes (a.extractLsb' 8 8) (a.extractLsb' 0 8) = a := by
  apply BitVec.eq_of_toNat_eq
  have := a.isLt
  simp only [addrOfBytes_toNat, BitVec.extractLsb'_toNat, Nat.shiftRight_eq_div_pow]
  omega

/-- Joining two bytes and splitting them gives them back. -/
@[simp] theorem addrBytes_addrOfBytes (hi lo : Byte) : addrBytes (addrOfBytes hi lo) = [hi, lo] := by
  have h1 := hi.isLt
  have h2 := lo.isLt
  simp only [addrBytes, List.cons.injEq, and_true]
  constructor <;> apply BitVec.eq_of_toNat_eq <;>
    simp only [addrOfBytes_toNat, BitVec.extractLsb'_toNat, Nat.shiftRight_eq_div_pow] <;> omega

/-- What an accepted immediate is. -/
theorem fitImm_eq_some (n : Nat) (x : Byte) : fitImm n = some x ↔ n < 256 ∧ x.toNat = n := by
  unfold fitImm
  split
  · rw [Option.some.injEq]
    exact ⟨fun h => h ▸ ⟨by omega, by simp; omega⟩, fun ⟨_, h⟩ => h ▸ by simp⟩
  · simp
    omega

/-- What an accepted register index is. -/
theorem fitReg_eq_some (n : Nat) (x : Byte) : fitReg n = some x ↔ n < 3 ∧ x.toNat = n := by
  unfold fitReg
  split
  · rw [Option.some.injEq]
    exact ⟨fun h => h ▸ ⟨by omega, by simp; omega⟩, fun ⟨_, h⟩ => h ▸ by simp⟩
  · simp
    omega

/-- What an accepted address is. -/
theorem fitAddr_eq_some (n : Nat) (x : Addr) : fitAddr n = some x ↔ n < 65536 ∧ x.toNat = n := by
  unfold fitAddr
  split
  · rw [Option.some.injEq]
    exact ⟨fun h => h ▸ ⟨by omega, by simp; omega⟩, fun ⟨_, h⟩ => h ▸ by simp⟩
  · simp
    omega

/-- What a row with one operand accepts. -/
theorem buildOne_eq_some {α : Type} (fit : Nat → Option α) (mk : α → Instr) (vs : List Nat) (i : Instr) :
    buildOne fit mk vs = some i ↔ ∃ n x, vs = [n] ∧ fit n = some x ∧ mk x = i := by
  rcases vs with _ | ⟨n, _ | ⟨m, r⟩⟩ <;> simp [buildOne]

/-- What a row with two operands accepts. -/
theorem buildTwo_eq_some (fit : Nat → Option Byte) (mk : Byte → Byte → Instr) (vs : List Nat) (i : Instr) :
    buildTwo fit mk vs = some i ↔
      ∃ d n x y, vs = [d, n] ∧ fitReg d = some x ∧ fit n = some y ∧ mk x y = i := by
  rcases vs with _ | ⟨n, _ | ⟨m, _ | ⟨k, r⟩⟩⟩ <;> simp [buildTwo, Option.bind_eq_some_iff]

end Sys2Proof
end

