-- ==== Sys2Proof/Laws/Assembler.lean ====
section
/-! SUPPORT. What a label's name, a line and a source of the assembler can be. -/

namespace Sys2Proof

/-- Everything a label's name can be (log entry 29). -/
theorem labelName_eq_some (t n : Token) :
    labelName t = some n ↔ n = t ∧ isKeyword t = false ∧ ∃ ch rest, t = ch :: rest ∧ isLetter ch = true ∧
      ∀ x ∈ rest, isNameChar x = true := by
  rcases t with _ | ⟨ch, rest⟩
  · simp [labelName]
  · simp [labelName]
    constructor
    · rintro ⟨⟨⟨h1, h2⟩, h3⟩, rfl⟩
      exact ⟨rfl, h3, h1, h2⟩
    · rintro ⟨rfl, h3, h1, h2⟩
      exact ⟨⟨⟨h1, h2⟩, h3⟩, rfl⟩

/-- A token with a comma names no label. -/
theorem labelName_comma (t : Token) (h : ',' ∈ t) : labelName t = none := by
  rw [Option.eq_none_iff_forall_ne_some]
  intro n hn
  obtain ⟨_, _, ch, rest, rfl, h1, h2⟩ := (labelName_eq_some t n).1 hn
  rcases List.mem_cons.1 h with rfl | hm
  · exact absurd h1 (by decide)
  · exact absurd (h2 _ hm) (by decide)

/-- A digit string with a comma writes no number. -/
theorem digitsValue_comma (base n : Nat) (t : List Char) (h : ',' ∈ t) : digitsValue base n t = none := by
  induction t generalizing n with
  | nil => simp at h
  | cons ch rest ih =>
    rcases List.mem_cons.1 h with rfl | hm
    · simp [digitsValue, digitValue]
    · simp [digitsValue, ih _ hm]

theorem numeral_comma (base : Nat) (t : List Char) (h : ',' ∈ t) : numeral base t = none := by
  rcases t with _ | ⟨ch, rest⟩
  · rfl
  · exact digitsValue_comma _ _ _ h

/-- No operand class takes a token with a comma. -/
theorem classifyOperand_comma (t : Token) (h : ',' ∈ t) : classifyOperand t = none := by
  have hr : registerName t = none := by
    unfold registerName
    split <;> simp at h ⊢
  have ha : addressLiteral t = none := by
    unfold addressLiteral
    split
    · exact numeral_comma _ _ (by simpa using h)
    · rfl
  have hi : immediateLiteral t = none := by
    unfold immediateLiteral
    split
    · exact numeral_comma _ _ (by simpa using h)
    · exact numeral_comma _ _ h
  simp [classifyOperand, hr, ha, hi]

theorem conditionKeyword_comma (t : Token) (h : ',' ∈ t) : conditionKeyword t = none := by
  unfold conditionKeyword
  split <;> simp at h ⊢

theorem mnemonicOf_comma (t : Token) (h : ',' ∈ t) : mnemonicOf t = none := by
  unfold mnemonicOf
  split <;> simp at h ⊢

theorem parseJump_comma (ts : List Token) (h : ∃ t ∈ ts, ',' ∈ t) : parseJump ts = none := by
  unfold parseJump
  split
  · rw [labelName_comma _ (by simpa using h)]
    rfl
  · rename_i k t
    simp only [List.mem_cons, List.not_mem_nil, or_false, exists_eq_or_imp, exists_eq_left] at h
    rcases h with h | h
    · rw [conditionKeyword_comma _ h]
      rfl
    · rw [labelName_comma _ h]
      simp
  · rfl

theorem mapM_classify_comma (ts : List Token) (h : ∃ t ∈ ts, ',' ∈ t) : ts.mapM classifyOperand = none := by
  induction ts with
  | nil => simp at h
  | cons t ts ih =>
    rw [List.mapM_cons]
    by_cases ht : ',' ∈ t
    · rw [classifyOperand_comma t ht]
      rfl
    · rw [ih (by simpa [ht] using h)]
      cases classifyOperand t <;> rfl

/-- A line with a comma in any token is refused: what R84 leaves open (log entry 29). -/
theorem parseTokens_comma (ts : List Token) (h : ∃ t ∈ ts, ',' ∈ t) : parseTokens ts = none := by
  rcases ts with _ | ⟨head, ops⟩
  · simp at h
  · unfold parseTokens
    simp only [List.mem_cons, exists_eq_or_imp] at h
    by_cases hc : head.getLast? = some ':'
    · simp only [hc, if_true]
      rcases ops with _ | ⟨o, os⟩
      · have hm : ',' ∈ head := by simpa using h
        have hd : ',' ∈ head.dropLast := by
          rw [← List.dropLast_append_getLast? ':' hc, List.mem_append] at hm
          simpa using hm
        rw [labelName_comma _ hd]
        rfl
      · rfl
    · simp only [hc, if_false]
      by_cases hh : ',' ∈ head
      · rw [mnemonicOf_comma _ hh]
      · have ho : ∃ t ∈ ops, ',' ∈ t := by simpa [hh] using h
        split
        · rfl
        · exact parseJump_comma _ ho
        · rw [mapM_classify_comma _ ho]
          rfl

/-- What the bytes of lines one after the other are. -/
theorem linesBytes_cons (resolve : Token → Option Nat) (line : SourceLine) (rest : List SourceLine) (bytes : List Byte) :
    linesBytes resolve (line :: rest) = some bytes ↔
      ∃ x y, line.bytes resolve = some x ∧ linesBytes resolve rest = some y ∧ bytes = x ++ y := by
  simp only [linesBytes, Option.bind_eq_some_iff, Option.map_eq_some_iff]
  exact ⟨fun ⟨x, h1, y, h2, h⟩ => ⟨x, y, h1, h2, h.symm⟩, fun ⟨x, y, h1, h2, h⟩ => ⟨x, h1, y, h2, h.symm⟩⟩

end Sys2Proof
end

