-- ==== Sys2Proof/Laws/Memory.lean ====
section
/-! SUPPORT. The laws of a store: a read after a write, and that every write keeps the canonical form. -/

namespace Sys2Proof.Machine

/-- An empty store reads as `fill` everywhere. -/
@[simp] theorem Memory.read_nil (fill : Byte) (a : Nat) : Memory.read fill [] a = fill := rfl

theorem Memory.wf_nil (size : Nat) (fill : Byte) : Memory.wf size fill [] := by simp [Memory.wf]

/-- A write leaves every other address as it was, whatever the form of the list. -/
theorem Memory.read_write_other (fill : Byte) (m : Memory) (a x : Nat) (v : Byte) (h : x ≠ a) :
    Memory.read fill (Memory.write fill m a v) x = Memory.read fill m x := by
  induction m with
  | nil => by_cases hv : v = fill <;> simp [Memory.write, Memory.read, hv, Ne.symm h]
  | cons p m ih =>
    obtain ⟨k, w⟩ := p
    simp only [Memory.write]
    split_ifs with h1 hv h2 hv
    · rfl
    · simp [Memory.read, Ne.symm h]
    · subst h2
      simp [Memory.read, Ne.symm h]
    · subst h2
      simp [Memory.read, Ne.symm h]
    · simp [Memory.read, ih]

/-- Below every listed address a store reads as `fill`. -/
theorem Memory.read_below (fill : Byte) (m : Memory) (a : Nat) (h : ∀ x ∈ m, a < x.1) : Memory.read fill m a = fill := by
  induction m with
  | nil => rfl
  | cons p m ih =>
    obtain ⟨k, w⟩ := p
    have hk : a < k := h (k, w) (by simp)
    simp only [Memory.read, if_neg (Nat.ne_of_gt hk)]
    exact ih fun x hx => h x (by simp [hx])

/-- A read after a write to the same address gives the value written, in a canonical store. -/
theorem Memory.read_write_same (size : Nat) (fill : Byte) (m : Memory) (a : Nat) (v : Byte)
    (hm : Memory.wf size fill m) : Memory.read fill (Memory.write fill m a v) a = v := by
  induction m with
  | nil => by_cases hv : v = fill <;> simp [Memory.write, Memory.read, hv]
  | cons p m ih =>
    obtain ⟨k, w⟩ := p
    obtain ⟨hp, hc⟩ := hm
    obtain ⟨hk, hp⟩ := List.pairwise_cons.1 hp
    simp only [Memory.write]
    split_ifs with h1 hv h2 hv
    · subst hv
      refine Memory.read_below _ _ _ fun x hx => ?_
      rcases List.mem_cons.1 hx with rfl | hx
      · exact h1
      · exact Nat.lt_trans h1 (hk x hx)
    · simp [Memory.read]
    · subst h2 hv
      exact Memory.read_below _ _ _ hk
    · simp [Memory.read]
    · simp only [Memory.read, if_neg (Ne.symm h2)]
      exact ih ⟨hp, fun x hx => hc x (by simp [hx])⟩

/-- Every address listed after a write is the written one or was listed before. -/
theorem Memory.mem_write (fill : Byte) (m : Memory) (a : Nat) (v : Byte) (x : Host.Cell)
    (hx : x ∈ Memory.write fill m a v) : (x = (a, v) ∧ v ≠ fill) ∨ x ∈ m := by
  induction m with
  | nil =>
    by_cases hv : v = fill
    · simp [Memory.write, hv] at hx
    · simp only [Memory.write, if_neg hv, List.mem_singleton] at hx
      exact .inl ⟨hx, hv⟩
  | cons p m ih =>
    obtain ⟨k, w⟩ := p
    simp only [Memory.write] at hx
    split_ifs at hx with h1 hv h2 hv
    · exact .inr hx
    · rcases List.mem_cons.1 hx with h | h
      · exact .inl ⟨h, hv⟩
      · exact .inr h
    · exact .inr (List.mem_cons_of_mem _ hx)
    · rcases List.mem_cons.1 hx with h | h
      · exact .inl ⟨h, hv⟩
      · exact .inr (List.mem_cons_of_mem _ h)
    · rcases List.mem_cons.1 hx with h | h
      · exact .inr (h ▸ List.mem_cons_self)
      · exact (ih h).imp_right (List.mem_cons_of_mem _)

/-- Every write inside the store keeps the canonical form. -/
theorem Memory.wf_write (size : Nat) (fill : Byte) (m : Memory) (a : Nat) (v : Byte) (hm : Memory.wf size fill m)
    (ha : a < size) : Memory.wf size fill (Memory.write fill m a v) := by
  refine ⟨?_, fun x hx => ?_⟩
  · induction m with
    | nil => by_cases hv : v = fill <;> simp [Memory.write, hv]
    | cons p m ih =>
      obtain ⟨k, w⟩ := p
      obtain ⟨hp, hc⟩ := hm
      obtain ⟨hk, hpm⟩ := List.pairwise_cons.1 hp
      simp only [Memory.write]
      split_ifs with h1 hv h2 hv
      · exact hp
      · refine List.pairwise_cons.2 ⟨fun x hx => ?_, hp⟩
        rcases List.mem_cons.1 hx with rfl | hx
        · exact h1
        · exact Nat.lt_trans h1 (hk x hx)
      · exact hpm
      · subst h2
        exact List.pairwise_cons.2 ⟨hk, hpm⟩
      · refine List.pairwise_cons.2 ⟨fun x hx => ?_, ih ⟨hpm, fun x hx => hc x (by simp [hx])⟩⟩
        rcases Memory.mem_write _ _ _ _ _ hx with ⟨rfl, -⟩ | hx
        · show k < a
          omega
        · exact hk x hx
  · rcases Memory.mem_write _ _ _ _ _ hx with ⟨rfl, hv⟩ | hx
    · exact ⟨ha, hv⟩
    · exact hm.2 x hx

/-- Writing a run of bytes inside the store keeps the canonical form. -/
theorem Memory.wf_writeAll (size : Nat) (fill : Byte) (vs : List Byte) (m : Memory) (a : Nat)
    (hm : Memory.wf size fill m) (ha : a + vs.length ≤ size) : Memory.wf size fill (Memory.writeAll fill m a vs) := by
  induction vs generalizing m a with
  | nil => exact hm
  | cons v vs ih =>
    simp only [List.length_cons] at ha
    exact ih _ _ (Memory.wf_write _ _ _ _ _ hm (by omega)) (by omega)

end Sys2Proof.Machine
end

