-- ==== Sys2Proof/Laws/State.lean ====
section
/-! SUPPORT. The small lemmas of the state operations: one per field per update, and the parameter values. -/

namespace Sys2Proof.Machine

@[simp] theorem config_progSize : config.progSize = 4096 := rfl
@[simp] theorem config_dataSize : config.dataSize = 4096 := rfl
@[simp] theorem config_progFill : config.progFill = 0 := rfl
@[simp] theorem config_initData : config.initData = 0 := rfl
@[simp] theorem config_arithFlags : config.arithFlags = arithFlags := rfl

@[simp] theorem State.get_a (s : State) : s.get .a = s.a := rfl
@[simp] theorem State.get_b (s : State) : s.get .b = s.b := rfl
@[simp] theorem State.get_c (s : State) : s.get .c = s.c := rfl

/-- A write to one register never changes another (R21). -/
theorem State.get_set (s : State) (r q : Reg) (v : Byte) : (s.set r v).get q = if q = r then v else s.get q := by
  cases r <;> cases q <;> rfl
@[simp] theorem State.get_set_self (s : State) (r : Reg) (v : Byte) : (s.set r v).get r = v := by cases r <;> rfl
@[simp] theorem State.set_pc (s : State) (r : Reg) (v : Byte) : (s.set r v).pc = s.pc := by cases r <;> rfl
@[simp] theorem State.set_flags (s : State) (r : Reg) (v : Byte) : (s.set r v).flags = s.flags := by cases r <;> rfl
@[simp] theorem State.set_status (s : State) (r : Reg) (v : Byte) : (s.set r v).status = s.status := by
  cases r <;> rfl
@[simp] theorem State.set_faultInfo (s : State) (r : Reg) (v : Byte) : (s.set r v).faultInfo = s.faultInfo := by
  cases r <;> rfl
@[simp] theorem State.set_prog (s : State) (r : Reg) (v : Byte) : (s.set r v).prog = s.prog := by cases r <;> rfl
@[simp] theorem State.set_data (s : State) (r : Reg) (v : Byte) : (s.set r v).data = s.data := by cases r <;> rfl
@[simp] theorem State.set_a_a (s : State) (v : Byte) : (s.set .a v).a = v := rfl
@[simp] theorem State.set_b_b (s : State) (v : Byte) : (s.set .b v).b = v := rfl
@[simp] theorem State.set_c_c (s : State) (v : Byte) : (s.set .c v).c = v := rfl

@[simp] theorem State.setFlags_get (s : State) (f : Flags) (r : Reg) : (s.setFlags f).get r = s.get r := by
  cases r <;> rfl
@[simp] theorem State.setFlags_a (s : State) (f : Flags) : (s.setFlags f).a = s.a := rfl
@[simp] theorem State.setFlags_b (s : State) (f : Flags) : (s.setFlags f).b = s.b := rfl
@[simp] theorem State.setFlags_c (s : State) (f : Flags) : (s.setFlags f).c = s.c := rfl
@[simp] theorem State.setFlags_pc (s : State) (f : Flags) : (s.setFlags f).pc = s.pc := rfl
@[simp] theorem State.setFlags_flags (s : State) (f : Flags) : (s.setFlags f).flags = f := rfl
@[simp] theorem State.setFlags_status (s : State) (f : Flags) : (s.setFlags f).status = s.status := rfl
@[simp] theorem State.setFlags_faultInfo (s : State) (f : Flags) : (s.setFlags f).faultInfo = s.faultInfo := rfl
@[simp] theorem State.setFlags_prog (s : State) (f : Flags) : (s.setFlags f).prog = s.prog := rfl
@[simp] theorem State.setFlags_data (s : State) (f : Flags) : (s.setFlags f).data = s.data := rfl

@[simp] theorem State.advance_get (s : State) (n : Nat) (r : Reg) : (s.advance n).get r = s.get r := by
  cases r <;> rfl
@[simp] theorem State.advance_a (s : State) (n : Nat) : (s.advance n).a = s.a := rfl
@[simp] theorem State.advance_b (s : State) (n : Nat) : (s.advance n).b = s.b := rfl
@[simp] theorem State.advance_c (s : State) (n : Nat) : (s.advance n).c = s.c := rfl
@[simp] theorem State.advance_pc (s : State) (n : Nat) : (s.advance n).pc = s.pc + BitVec.ofNat 16 n := rfl
@[simp] theorem State.advance_flags (s : State) (n : Nat) : (s.advance n).flags = s.flags := rfl
@[simp] theorem State.advance_status (s : State) (n : Nat) : (s.advance n).status = s.status := rfl
@[simp] theorem State.advance_faultInfo (s : State) (n : Nat) : (s.advance n).faultInfo = s.faultInfo := rfl
@[simp] theorem State.advance_prog (s : State) (n : Nat) : (s.advance n).prog = s.prog := rfl
@[simp] theorem State.advance_data (s : State) (n : Nat) : (s.advance n).data = s.data := rfl
@[simp] theorem State.advance_progByte (s : State) (n a : Nat) : (s.advance n).progByte a = s.progByte a := rfl

/-- Consuming bytes twice is consuming them together. -/
theorem State.advance_advance (s : State) (m n : Nat) : (s.advance m).advance n = s.advance (m + n) := by
  simp [State.advance, BitVec.add_assoc, BitVec.ofNat_add]

@[simp] theorem State.jumpTo_get (s : State) (t : Addr) (r : Reg) : (s.jumpTo t).get r = s.get r := by
  cases r <;> rfl
@[simp] theorem State.jumpTo_pc (s : State) (t : Addr) : (s.jumpTo t).pc = t := rfl
@[simp] theorem State.jumpTo_flags (s : State) (t : Addr) : (s.jumpTo t).flags = s.flags := rfl
@[simp] theorem State.jumpTo_status (s : State) (t : Addr) : (s.jumpTo t).status = s.status := rfl
@[simp] theorem State.jumpTo_faultInfo (s : State) (t : Addr) : (s.jumpTo t).faultInfo = s.faultInfo := rfl
@[simp] theorem State.jumpTo_prog (s : State) (t : Addr) : (s.jumpTo t).prog = s.prog := rfl
@[simp] theorem State.jumpTo_data (s : State) (t : Addr) : (s.jumpTo t).data = s.data := rfl

@[simp] theorem State.halt_get (s : State) (st : Status) (r : Reg) : (s.halt st).get r = s.get r := by
  cases r <;> rfl
@[simp] theorem State.halt_pc (s : State) (st : Status) : (s.halt st).pc = s.pc := rfl
@[simp] theorem State.halt_flags (s : State) (st : Status) : (s.halt st).flags = s.flags := rfl
@[simp] theorem State.halt_status (s : State) (st : Status) : (s.halt st).status = st := rfl
@[simp] theorem State.halt_faultInfo (s : State) (st : Status) : (s.halt st).faultInfo = s.faultInfo := rfl
@[simp] theorem State.halt_prog (s : State) (st : Status) : (s.halt st).prog = s.prog := rfl
@[simp] theorem State.halt_data (s : State) (st : Status) : (s.halt st).data = s.data := rfl

@[simp] theorem State.raise_get (s : State) (e : FaultEvent) (r : Reg) : (s.raise e).get r = s.get r := by
  cases r <;> rfl
@[simp] theorem State.raise_pc (s : State) (e : FaultEvent) : (s.raise e).pc = s.pc := rfl
@[simp] theorem State.raise_flags (s : State) (e : FaultEvent) : (s.raise e).flags = s.flags := rfl
@[simp] theorem State.raise_status (s : State) (e : FaultEvent) : (s.raise e).status = e.status := rfl
@[simp] theorem State.raise_faultInfo (s : State) (e : FaultEvent) : (s.raise e).faultInfo = e.info := rfl
@[simp] theorem State.raise_prog (s : State) (e : FaultEvent) : (s.raise e).prog = s.prog := rfl
@[simp] theorem State.raise_data (s : State) (e : FaultEvent) : (s.raise e).data = s.data := rfl

/-- Every fault sets a fault status. -/
@[simp] theorem FaultEvent.status_isFault (e : FaultEvent) : e.status.isFault = true := by cases e <;> rfl

/-- Two states are equal when their registers and all other fields are. -/
theorem State.ext_get {s t : State} (hr : ∀ r, s.get r = t.get r) (hp : s.pc = t.pc) (hf : s.flags = t.flags)
    (hs : s.status = t.status) (hi : s.faultInfo = t.faultInfo) (hg : s.prog = t.prog) (hd : s.data = t.data) :
    s = t := by
  have ha := hr .a
  have hb := hr .b
  have hc := hr .c
  cases s
  cases t
  simp_all

end Sys2Proof.Machine
end

