-- ==== Sys2Proof/Laws/Operands.lean ====
section
/-! SUPPORT. Once for each operand form and shared operation, everything it can do. The provers cite these lemmas instead
of unfolding the operations. -/

namespace Sys2Proof.Machine

/-- The register an index byte names (R21, R64). -/
theorem regOfIndex_cases (i : Byte) :
    (i = 0 ∧ regOfIndex i = some .a) ∨ (i = 1 ∧ regOfIndex i = some .b) ∨ (i = 2 ∧ regOfIndex i = some .c) ∨
      (3 ≤ i.toNat ∧ regOfIndex i = none) := by
  revert i
  decide

theorem regOfIndex_eq_none (i : Byte) : regOfIndex i = none ↔ 3 ≤ i.toNat := by
  revert i
  decide

/-- One register operand: it names a register, or BadRegister is raised and nothing else done. -/
theorem withReg_spec (op : Opcode) (i : Byte) (s : State) (act : Reg → State → State) :
    (∃ r, regOfIndex i = some r ∧ withReg op i s act = act r (s.advance op.length)) ∨
      (regOfIndex i = none ∧ withReg op i s act = (s.advance op.length).raise (.badRegister s.pc i)) := by
  unfold withReg
  cases h : regOfIndex i with
  | none => exact .inr ⟨rfl, rfl⟩
  | some r => exact .inl ⟨r, rfl, rfl⟩

/-- Two register operands: both name registers, or BadRegister is raised for the first that does not. -/
theorem withRegs_spec (op : Opcode) (d i : Byte) (s : State) (act : Reg → Reg → State → State) :
    (∃ r q, regOfIndex d = some r ∧ regOfIndex i = some q ∧ withRegs op d i s act = act r q (s.advance op.length)) ∨
      (regOfIndex d = none ∧ withRegs op d i s act = (s.advance op.length).raise (.badRegister s.pc d)) ∨
      (∃ r, regOfIndex d = some r ∧ regOfIndex i = none ∧
        withRegs op d i s act = (s.advance op.length).raise (.badRegister s.pc i)) := by
  unfold withRegs withReg
  cases hd : regOfIndex d with
  | none => exact .inr (.inl ⟨rfl, rfl⟩)
  | some r =>
    cases hi : regOfIndex i with
    | none => exact .inr (.inr ⟨r, rfl, rfl, rfl⟩)
    | some q => exact .inl ⟨r, q, rfl, rfl, rfl⟩

/-- A load from an address: the byte there, or DataOutOfBounds and nothing else. -/
theorem withLoad_spec (op : Opcode) (addr : Addr) (s : State) (act : Byte → State → State) :
    (addr.toNat < 4096 ∧ withLoad op addr s act = act (s.dataByte addr.toNat) (s.advance op.length)) ∨
      (4096 ≤ addr.toNat ∧
        withLoad op addr s act = (s.advance op.length).raise (.dataOutOfBounds addr op.toByte)) := by
  by_cases h : addr.toNat < 4096
  · exact .inl ⟨h, by simp [withLoad, State.memRead, h]; rfl⟩
  · exact .inr ⟨by omega, by simp [withLoad, State.memRead, h]⟩

/-- A store of one byte: the byte written, or DataOutOfBounds and nothing else. -/
theorem storeByte_spec (op : Opcode) (addr : Addr) (v : Byte) (s : State) :
    (addr.toNat < 4096 ∧ storeByte op addr v s =
        { s.advance op.length with data := Memory.write config.initData s.data addr.toNat v }) ∨
      (4096 ≤ addr.toNat ∧
        storeByte op addr v s = (s.advance op.length).raise (.dataOutOfBounds addr op.toByte)) := by
  by_cases h : addr.toNat < 4096
  · exact .inl ⟨h, by simp [storeByte, State.memWrite, h]⟩
  · exact .inr ⟨by omega, by simp [storeByte, State.memWrite, h]⟩

/-- ADD and SUB write the target register and both flags, and nothing else. -/
theorem arith_spec (f : ArithOp → Byte → Byte → Flags) (op : ArithOp) (d : Reg) (right : Byte) (s : State) :
    arith f op d right s = (s.setFlags (f op (s.get d) right)).set d (arithResult op (s.get d) right) := by
  cases d <;> rfl

/-- A jump writes `pc` alone. -/
theorem jumpIf_spec (op : Opcode) (taken : Bool) (target : Addr) (s : State) :
    (taken = true ∧ jumpIf op taken target s = s.jumpTo target) ∨
      (taken = false ∧ jumpIf op taken target s = s.advance op.length) := by
  cases taken
  · exact .inr ⟨rfl, rfl⟩
  · exact .inl ⟨rfl, rfl⟩

end Sys2Proof.Machine
end

