-- ==== Sys2Proof/Laws/Cycle.lean ====
section
/-! SUPPORT. What the fetch can reach and what one step can do. -/

namespace Sys2Proof.Machine

/-- Past the end of the program store there is nothing to fetch. -/
theorem State.bytesFrom_end (s : State) (n a : Nat) (h : 4096 ≤ a) : s.bytesFrom n a = [] := by
  cases n with
  | zero => rfl
  | succ n => simp [State.bytesFrom, Nat.not_lt.2 h]

/-- Inside it, the next byte comes first. -/
theorem State.bytesFrom_step (s : State) (n a : Nat) (h : a < 4096) :
    s.bytesFrom (n + 1) a = s.progByte a :: s.bytesFrom n (a + 1) := by
  simp [State.bytesFrom, h]

theorem State.window_end (s : State) (h : 4096 ≤ s.pc.toNat) : s.window = [] := s.bytesFrom_end _ _ h

/-- How many bytes the fetch can reach. -/
theorem State.bytesFrom_length (s : State) (n a : Nat) : (s.bytesFrom n a).length = min n (4096 - a) := by
  induction n generalizing a with
  | zero => simp [State.bytesFrom]
  | succ n ih =>
    by_cases h : a < 4096
    · rw [s.bytesFrom_step _ _ h, List.length_cons, ih]
      omega
    · rw [s.bytesFrom_end _ _ (by omega)]
      simp
      omega

theorem State.window_length (s : State) : s.window.length = min 3 (4096 - s.pc.toNat) := s.bytesFrom_length 3 _

/-- What the fetch reaches depends on the program store alone. -/
theorem State.bytesFrom_congr {s t : State} (h : s.prog = t.prog) (n a : Nat) : s.bytesFrom n a = t.bytesFrom n a := by
  induction n generalizing a with
  | zero => rfl
  | succ n ih => simp only [State.bytesFrom, ih, State.progByte, h]

/-- Bytes that stand in the store are the first the fetch reaches. -/
theorem State.bytesFrom_of_bytes (s : State) (bytes : List Byte) (n a : Nat) (hn : bytes.length ≤ n)
    (hb : a + bytes.length ≤ 4096) (h : ∀ (k : Nat) (hk : k < bytes.length), s.progByte (a + k) = bytes[k]) :
    s.bytesFrom n a = bytes ++ s.bytesFrom (n - bytes.length) (a + bytes.length) := by
  induction bytes generalizing n a with
  | nil => simp
  | cons b bs ih =>
    simp only [List.length_cons] at hn hb
    obtain ⟨m, rfl⟩ : ∃ m, n = m + 1 := ⟨n - 1, by omega⟩
    have h0 : s.progByte a = b := h 0 (by simp)
    rw [s.bytesFrom_step _ _ (by omega), h0, ih m (a + 1) (by omega) (by omega)]
    · simp only [List.cons_append, List.length_cons]
      congr 3 <;> omega
    · intro k hk
      have := h (k + 1) (by simpa using hk)
      simpa [Nat.add_assoc, Nat.add_comm 1 k] using this

/-- The window of a state with code at its program counter begins with that code. -/
theorem State.window_of_codeAt (s : State) (bytes : List Byte) (hn : bytes.length ≤ 3) (h : s.codeAt bytes) :
    ∃ rest, s.window = bytes ++ rest :=
  ⟨_, s.bytesFrom_of_bytes bytes 3 _ hn h.1 h.2⟩

/-- The window begins with the opcode byte. -/
theorem State.window_opcode (s : State) (h : s.pc.toNat < 4096) :
    s.window = s.progByte s.pc.toNat :: s.bytesFrom 2 (s.pc.toNat + 1) := s.bytesFrom_step 2 _ h

/-- A core that is not Running stays as it is (R105). -/
theorem step_stopped (s : State) (h : s.status ≠ .running) : step s = .next s := by
  simp [step, cycle, h]

/-- Everything one step of a running core can do (R101). -/
theorem step_running (s : State) (h : s.status = .running) :
    (decode s.window = .noOpcode ∧ step s = .next (s.halt .haltEnd)) ∨
      (∃ op, decode s.window = .illegal op ∧ step s = .next ((s.advance 1).raise (.illegalOpcode s.pc op))) ∨
      (∃ op, decode s.window = .missingOperand op ∧
        step s = .next ((s.advance s.window.length).raise
          (.progOutOfBounds (s.advance s.window.length).pc op))) ∨
      ∃ i rest, decode s.window = .instr i rest ∧ step s = exec i s := by
  unfold step cycle
  rw [if_pos h]
  cases hd : decode s.window with
  | noOpcode => exact .inl ⟨rfl, rfl⟩
  | illegal op => exact .inr (.inl ⟨op, rfl, rfl⟩)
  | missingOperand op => exact .inr (.inr (.inl ⟨op, rfl, rfl⟩))
  | instr i rest => exact .inr (.inr (.inr ⟨i, rest, rfl, rfl⟩))

end Sys2Proof.Machine
end

