-- ==== Sys2Proof/Laws/Exec.lean ====
section
/-! SUPPORT. What `exec` can do to the stores and to the status, over all instructions. -/

namespace Sys2Proof.Machine

/-- `exec` leaves the program store alone and writes at most one byte of the data store, inside it. -/
theorem exec_stores (i : Instr) (s t : State) (h : exec i s = .next t) :
    t.prog = s.prog ∧ (t.data = s.data ∨ ∃ a v, a < 4096 ∧ t.data = Memory.write config.initData s.data a v) := by
  cases i <;> simp only [exec, execNop, execFill, execLdaImm, execLdbImm, execLdcImm, execLdaReg, execLdbReg, execLdcReg,
    execSta, execStb, execStc, execLdaAddr, execAddRr, execSubRr, execAddRi, execSubRi, execAndRr, execOrRr, execXorRr,
    execNotR, execJmp, execJmpZ, execJmpNz, execJmpC, execJmpNc, execCp, loadReg, bitwise, Host.Outcome.next.injEq]
    at h <;> subst h
  case nop | fill | ldaImm | ldbImm | ldcImm | cp => exact ⟨by simp [loadImm], .inl (by simp [loadImm])⟩
  case ldaReg r | ldbReg r | ldcReg r | notR r | addRi r _ | subRi r _ =>
    generalize hf : (fun (i : Reg) (s1 : State) => _) = f
    rcases withReg_spec _ r s f with ⟨_, _, h⟩ | ⟨_, h⟩ <;> rw [h] <;> subst hf <;>
      exact ⟨by simp [arith_spec], .inl (by simp [arith_spec])⟩
  case addRr d r | subRr d r | andRr d r | orRr d r | xorRr d r =>
    generalize hf : (fun (i j : Reg) (s1 : State) => _) = f
    rcases withRegs_spec _ d r s f with ⟨_, _, _, _, h⟩ | ⟨_, h⟩ | ⟨_, _, _, h⟩ <;> rw [h] <;> subst hf <;>
      exact ⟨by simp [arith_spec], .inl (by simp [arith_spec])⟩
  case sta a | stb a | stc a =>
    rcases storeByte_spec _ a _ s with ⟨ha, h⟩ | ⟨_, h⟩ <;> rw [h]
    · exact ⟨rfl, .inr ⟨_, _, ha, rfl⟩⟩
    · exact ⟨rfl, .inl rfl⟩
  case ldaAddr a =>
    generalize hf : (fun (i : Byte) (s1 : State) => _) = f
    rcases withLoad_spec _ a s f with ⟨_, h⟩ | ⟨_, h⟩ <;> rw [h] <;> subst hf <;> exact ⟨by simp, .inl (by simp)⟩
  all_goals rcases jumpIf_spec _ _ _ s with ⟨_, h⟩ | ⟨_, h⟩ <;> (try rw [h]) <;> exact ⟨rfl, .inl rfl⟩

/-- The ways `exec` can end an instruction: it completes with `status` and `fault_info` as they were and `pc` past the
instruction or at a jump's target; or it is NOP; or it raises BadRegister or DataOutOfBounds with nothing else done. -/
theorem exec_cases (i : Instr) (s t : State) (h : exec i s = .next t) :
    (t.status = s.status ∧ t.faultInfo = s.faultInfo ∧
      (t.pc = s.pc + BitVec.ofNat 16 i.length ∨ jumpTarget i = some t.pc)) ∨
    (i = .nop ∧ t = { s with pc := s.pc + 1, status := .haltNop }) ∨
    (∃ b, firstBadIndex i = some b ∧ t = (s.advance i.length).raise (.badRegister s.pc b) ∧
      (i.length = 2 ∨ i.length = 3)) ∨
    (∃ a, 4096 ≤ a.toNat ∧ t = (s.advance 3).raise (.dataOutOfBounds a i.opcode.toByte) ∧ i.length = 3 ∧
      i.opcode.toByte ∈ ([0x03, 0x06, 0x09, 0x0A] : List Byte) ∧
      i ∈ [Instr.sta a, .stb a, .stc a, .ldaAddr a]) := by
  have hn := fun j => (regOfIndex_eq_none j).1
  cases i <;> simp only [exec, execNop, execFill, execLdaImm, execLdbImm, execLdcImm, execLdaReg, execLdbReg, execLdcReg,
    execSta, execStb, execStc, execLdaAddr, execAddRr, execSubRr, execAddRi, execSubRi, execAndRr, execOrRr, execXorRr,
    execNotR, execJmp, execJmpZ, execJmpNz, execJmpC, execJmpNc, execCp, loadReg, bitwise, Host.Outcome.next.injEq]
    at h <;> subst h
  case nop => exact .inr (.inl ⟨rfl, rfl⟩)
  case fill | ldaImm | ldbImm | ldcImm | cp => exact .inl ⟨by simp [loadImm], by simp [loadImm], .inl rfl⟩
  case ldaReg r | ldbReg r | ldcReg r | notR r =>
    generalize hf : (fun (i : Reg) (s1 : State) => _) = f
    rcases withReg_spec _ r s f with ⟨_, _, h⟩ | ⟨h0, h⟩ <;> rw [h] <;> subst hf
    · exact .inl ⟨by simp, by simp, .inl (by simp; rfl)⟩
    · exact .inr (.inr (.inl ⟨r, by simp [firstBadIndex, hn r h0], rfl, .inl rfl⟩))
  case addRi r _ | subRi r _ =>
    generalize hf : (fun (i : Reg) (s1 : State) => _) = f
    rcases withReg_spec _ r s f with ⟨_, _, h⟩ | ⟨h0, h⟩ <;> rw [h] <;> subst hf
    · exact .inl ⟨by simp [arith_spec], by simp [arith_spec], .inl (by simp [arith_spec]; rfl)⟩
    · exact .inr (.inr (.inl ⟨r, by simp [firstBadIndex, hn r h0], rfl, .inr rfl⟩))
  case addRr d r | subRr d r | andRr d r | orRr d r | xorRr d r =>
    generalize hf : (fun (i j : Reg) (s1 : State) => _) = f
    rcases withRegs_spec _ d r s f with ⟨_, _, _, _, h⟩ | ⟨h0, h⟩ | ⟨q, h1, h0, h⟩ <;> rw [h] <;> subst hf
    · exact .inl ⟨by simp [arith_spec], by simp [arith_spec], .inl (by simp [arith_spec]; rfl)⟩
    · exact .inr (.inr (.inl ⟨d, by simp [firstBadIndex, hn d h0], rfl, .inr rfl⟩))
    · have : ¬ 3 ≤ d.toNat := by
        rw [← regOfIndex_eq_none, h1]
        simp
      exact .inr (.inr (.inl ⟨r, by simp [firstBadIndex, hn r h0, this], rfl, .inr rfl⟩))
  case sta a | stb a | stc a =>
    rcases storeByte_spec _ a _ s with ⟨ha, h⟩ | ⟨h0, h⟩ <;> rw [h]
    · exact .inl ⟨rfl, rfl, .inl rfl⟩
    · exact .inr (.inr (.inr ⟨a, h0, rfl, rfl, by simp [Instr.opcode, Opcode.toByte], by simp⟩))
  case ldaAddr a =>
    generalize hf : (fun (i : Byte) (s1 : State) => _) = f
    rcases withLoad_spec _ a s f with ⟨_, h⟩ | ⟨h0, h⟩ <;> rw [h] <;> subst hf
    · exact .inl ⟨rfl, rfl, .inl rfl⟩
    · exact .inr (.inr (.inr ⟨a, h0, rfl, rfl, by simp [Instr.opcode, Opcode.toByte], by simp⟩))
  case jmp a => exact .inl ⟨rfl, rfl, .inr rfl⟩
  all_goals
    rcases jumpIf_spec _ _ _ s with ⟨_, h⟩ | ⟨_, h⟩ <;> rw [h]
    · exact .inl ⟨rfl, rfl, .inr rfl⟩
    · exact .inl ⟨rfl, rfl, .inl rfl⟩

end Sys2Proof.Machine
end

