-- ==== Sys2Proof/Laws/PerInstr.lean ====
section
/-! SUPPORT. The family EncodeLength: an instruction's encoding is as long as the opcode map says (spec/30_encoding.md
R60, R66), one lemma per constructor. -/

namespace Sys2Proof.Laws.EncodeLength

/-- The encoding has the row's length, and that is 1, 2 or 3 bytes. -/
def Statement (i : Instr) : Prop := (encode i).length = i.length ∧ 1 ≤ i.length ∧ i.length ≤ maxLength

theorem nop : Statement .nop := ⟨rfl, Opcode.length_bounds _⟩
theorem ldaImm (imm : Byte) : Statement (.ldaImm imm) := ⟨rfl, Opcode.length_bounds _⟩
theorem ldaReg (src : Byte) : Statement (.ldaReg src) := ⟨rfl, Opcode.length_bounds _⟩
theorem sta (addr : Addr) : Statement (.sta addr) := ⟨rfl, Opcode.length_bounds _⟩
theorem ldbImm (imm : Byte) : Statement (.ldbImm imm) := ⟨rfl, Opcode.length_bounds _⟩
theorem ldbReg (src : Byte) : Statement (.ldbReg src) := ⟨rfl, Opcode.length_bounds _⟩
theorem stb (addr : Addr) : Statement (.stb addr) := ⟨rfl, Opcode.length_bounds _⟩
theorem ldcImm (imm : Byte) : Statement (.ldcImm imm) := ⟨rfl, Opcode.length_bounds _⟩
theorem ldcReg (src : Byte) : Statement (.ldcReg src) := ⟨rfl, Opcode.length_bounds _⟩
theorem stc (addr : Addr) : Statement (.stc addr) := ⟨rfl, Opcode.length_bounds _⟩
theorem ldaAddr (addr : Addr) : Statement (.ldaAddr addr) := ⟨rfl, Opcode.length_bounds _⟩
theorem addRr (dst src : Byte) : Statement (.addRr dst src) := ⟨rfl, Opcode.length_bounds _⟩
theorem subRr (dst src : Byte) : Statement (.subRr dst src) := ⟨rfl, Opcode.length_bounds _⟩
theorem addRi (dst imm : Byte) : Statement (.addRi dst imm) := ⟨rfl, Opcode.length_bounds _⟩
theorem subRi (dst imm : Byte) : Statement (.subRi dst imm) := ⟨rfl, Opcode.length_bounds _⟩
theorem andRr (dst src : Byte) : Statement (.andRr dst src) := ⟨rfl, Opcode.length_bounds _⟩
theorem orRr (dst src : Byte) : Statement (.orRr dst src) := ⟨rfl, Opcode.length_bounds _⟩
theorem xorRr (dst src : Byte) : Statement (.xorRr dst src) := ⟨rfl, Opcode.length_bounds _⟩
theorem notR (dst : Byte) : Statement (.notR dst) := ⟨rfl, Opcode.length_bounds _⟩
theorem jmp (target : Addr) : Statement (.jmp target) := ⟨rfl, Opcode.length_bounds _⟩
theorem jmpZ (target : Addr) : Statement (.jmpZ target) := ⟨rfl, Opcode.length_bounds _⟩
theorem jmpNz (target : Addr) : Statement (.jmpNz target) := ⟨rfl, Opcode.length_bounds _⟩
theorem jmpC (target : Addr) : Statement (.jmpC target) := ⟨rfl, Opcode.length_bounds _⟩
theorem jmpNc (target : Addr) : Statement (.jmpNc target) := ⟨rfl, Opcode.length_bounds _⟩
theorem cp (imm : Byte) : Statement (.cp imm) := ⟨rfl, Opcode.length_bounds _⟩
theorem fill : Statement .fill := ⟨rfl, Opcode.length_bounds _⟩

end Sys2Proof.Laws.EncodeLength
end

