-- ==== Sys2Proof/Tests/Slice0.lean ====
section
/-! SUPPORT. Tests with the expected results of spec/95_test_vectors.md and of the instruction rules' examples, the refusals
of the well-formedness check, and for every obligation with hypotheses a witness that meets them. -/

namespace Sys2Proof.Tests

open Sys2Proof Sys2Proof.Machine

/-! ## Helpers -/

/-- The reset state with `bytes` in the program store at `pc` and `pc` there (the convention of
spec/95_test_vectors.md). -/
def codeState (pc : Addr) (bytes : List Byte) : State :=
  { State.reset with pc := pc, prog := Memory.writeAll 0x00 [] pc.toNat bytes }

/-- What `f` reads from the state after one step. -/
def after {α : Type} (s : State) (f : State → α) : Option α :=
  match step s with
  | .next t => some (f t)
  | _ => none

/-- The fields a vector speaks of most: A, B, C, Z, CY and `pc`. -/
def core5 (s : State) : Byte × Byte × Byte × Bool × Bool × Addr :=
  (s.a, s.b, s.c, s.flags.zero, s.flags.carry, s.pc)

/-- The fields a faulted run is judged by. -/
def verdict (s : State) : Status × FaultInfo × Addr := (s.status, s.faultInfo, s.pc)

/-! ## Well-formedness: each check refuses an ill-formed instruction (R64, R74) -/

theorem test_wf_accepts_index_2 :
    (Instr.ldaReg 2).wellFormed = true ∧ (Instr.addRr 2 2).wellFormed = true ∧
      (Instr.subRi 2 0xFF).wellFormed = true := by decide

theorem test_wf_refuses_one_register :
    (Instr.ldaReg 3).wellFormed = false ∧ (Instr.ldbReg 4).wellFormed = false ∧
      (Instr.ldcReg 0x80).wellFormed = false ∧ (Instr.notR 0xFF).wellFormed = false := by decide

theorem test_wf_refuses_destination :
    (Instr.addRr 3 0).wellFormed = false ∧ (Instr.subRr 3 0).wellFormed = false ∧
      (Instr.andRr 3 0).wellFormed = false ∧ (Instr.orRr 3 0).wellFormed = false ∧
      (Instr.xorRr 3 0).wellFormed = false := by decide

theorem test_wf_refuses_source :
    (Instr.addRr 0 3).wellFormed = false ∧ (Instr.subRr 0 3).wellFormed = false ∧
      (Instr.andRr 0 3).wellFormed = false ∧ (Instr.orRr 0 3).wellFormed = false ∧
      (Instr.xorRr 0 3).wellFormed = false := by decide

theorem test_wf_refuses_destination_with_immediate :
    (Instr.addRi 3 0).wellFormed = false ∧ (Instr.subRi 0xFF 0).wellFormed = false := by decide

/-! ## Decoding: vectors V1 to V29, bytes written out from R61 and R66 -/

theorem test_decode_nop : decode [0b00000000] = .instr .nop [] := by decide

theorem test_decode_ldaImm : decode [0b00000001, 0b00101010] = .instr (.ldaImm 0x2A) [] := by decide

theorem test_decode_ldaReg : decode [0b00000010, 0b00000010] = .instr (.ldaReg 2) [] := by decide

theorem test_decode_sta : decode [0b00000011, 0b00000001, 0b00100011] = .instr (.sta 0x0123) [] := by decide

theorem test_decode_ldbImm : decode [0b00000100, 0b00000000] = .instr (.ldbImm 0x00) [] := by decide

theorem test_decode_ldbReg : decode [0b00000101, 0b00000000] = .instr (.ldbReg 0) [] := by decide

theorem test_decode_stb : decode [0b00000110, 0b00001111, 0b11111111] = .instr (.stb 0x0FFF) [] := by decide

theorem test_decode_ldcImm : decode [0b00000111, 0b11111111] = .instr (.ldcImm 0xFF) [] := by decide

theorem test_decode_ldcReg : decode [0b00001000, 0b00000001] = .instr (.ldcReg 1) [] := by decide

theorem test_decode_stc : decode [0b00001001, 0b00000000, 0b00000001] = .instr (.stc 0x0001) [] := by decide

theorem test_decode_ldaAddr : decode [0b00001010, 0b00000000, 0b00100000] = .instr (.ldaAddr 0x0020) [] := by decide

theorem test_decode_addRr : decode [0b00001011, 0b00000000, 0b00000001] = .instr (.addRr 0 1) [] := by decide

theorem test_decode_subRr : decode [0b00001100, 0b00000010, 0b00000000] = .instr (.subRr 2 0) [] := by decide

theorem test_decode_addRi : decode [0b00001101, 0b00000001, 0b00010000] = .instr (.addRi 1 0x10) [] := by decide

theorem test_decode_subRi : decode [0b00001110, 0b00000000, 0b00000001] = .instr (.subRi 0 0x01) [] := by decide

theorem test_decode_andRr : decode [0b00001111, 0b00000010, 0b00000001] = .instr (.andRr 2 1) [] := by decide

theorem test_decode_orRr : decode [0b00010000, 0b00000000, 0b00000001] = .instr (.orRr 0 1) [] := by decide

theorem test_decode_xorRr : decode [0b00010001, 0b00000001, 0b00000001] = .instr (.xorRr 1 1) [] := by decide

theorem test_decode_notR : decode [0b00010010, 0b00000001] = .instr (.notR 1) [] := by decide

theorem test_decode_jmp : decode [0b00010011, 0b00000001, 0b00000000] = .instr (.jmp 0x0100) [] := by decide

theorem test_decode_jmpZ : decode [0b00010100, 0b00000000, 0b01000000] = .instr (.jmpZ 0x0040) [] := by decide

theorem test_decode_jmpNz : decode [0b00010101, 0b00000000, 0b00000010] = .instr (.jmpNz 0x0002) [] := by decide

theorem test_decode_jmpC : decode [0b00010110, 0b00000000, 0b00010101] = .instr (.jmpC 0x0015) [] := by decide

theorem test_decode_jmpNc : decode [0b00010111, 0b00000000, 0b00011010] = .instr (.jmpNc 0x001A) [] := by decide

/-- The byte after CP's immediate is the next opcode, not an operand (R71). -/
theorem test_decode_cp : decode [0b00011000, 0b00000101, 0xFF] = .instr (.cp 0x05) [0xFF] := by decide

theorem test_decode_fill : decode [0b11111111] = .instr .fill [] := by decide

theorem test_decode_illegal :
    decode [0x19] = .illegal 0x19 ∧ decode [0x80, 0x01] = .illegal 0x80 ∧ decode [0xFE] = .illegal 0xFE := by decide

/-- The opcode table numbers the first byte as bits 7 to 0 and the next as bits 15 to 8. -/
theorem test_table_numbering :
    decodeTableWord 24 0x01000B = some (.addRr 0 1) ∧ decodeTableWord 24 0x230103 = some (.sta 0x0123) ∧
      decodeTableWord 16 0x0518 = some (.cp 0x05) ∧ decodeTableWord 8 0x19 = none := by decide

/-- Bits from `nbits` up are zero. -/
theorem test_table_short_word : decodeTableWord 8 0x2A01 = some (.ldaImm 0x00) := by decide

/-! ## Encoding -/

/-- The source's own program (vector S6). -/
theorem test_encode_s6 :
    encodeProgram [(.LDA, [.imm 5]), (.LDB, [.imm 2]), (.ADD, [.reg .a, .reg .b]), (.STA, [.addr 0]), (.NOP, [])] =
      some [0x01, 0x05, 0x04, 0x02, 0x0B, 0x00, 0x01, 0x03, 0x00, 0x00, 0x00] := by decide

/-- The reference encoder's CP (R73), and a conditional jump with its label resolved (program P3). -/
theorem test_encode_cp_and_jump :
    encodeLine .CP [.imm 5] = some [0x18, 0x05, 0xFF] ∧
      encodeLine .JMP [.cond .c, .label 0x0015] = some [0x16, 0x00, 0x15] := by decide

/-- The examples of R74 that do not fit. -/
theorem test_encode_refuses :
    encodeLine .LDA [.imm 300] = none ∧ encodeLine .STA [.addr 0x12345] = none ∧ encodeRow .addRr [0, 3] = none ∧
      encodeRow .notR [3] = none ∧ encodeRow .jmp [65536] = none ∧ encodeRow .nop [0] = none := by decide

/-- S5: a label at the start, and a forward reference. -/
theorem test_assemble_labels :
    assemble [.label ['L'], .jump none ['L']] = some [0x13, 0x00, 0x00] ∧
      assemble [.jump none ['L'], .label ['L'], .plain .NOP []] = some [0x13, 0x00, 0x03, 0x00] := by decide

/-- By hand from R73 and R81: a label after a CP counts the filler. -/
theorem test_assemble_counts_filler :
    assemble [.plain .CP [.imm 5], .jump (some .c) ['E'], .plain .LDB [.imm 1], .label ['E'], .plain .NOP []] =
      some [0x18, 0x05, 0xFF, 0x16, 0x00, 0x08, 0x04, 0x01, 0x00] := by decide

/-- An undefined label is refused (U6 of spec/93_implementation_defined.md), and so is one defined twice. -/
theorem test_assemble_refuses :
    assemble [.jump none ['L']] = none ∧ assemble [.label ['L'], .label ['L']] = none := by decide

/-- R78, R80, R82: `LDA 0x3C ;x`, `LDA $0010`, `LDB A`; and `JMP C L`, where `C` is the condition. -/
theorem test_parse_lines :
    (parseTokens (lineTokens ['L', 'D', 'A', ' ', '0', 'x', '3', 'C', ' ', ';', 'x']) = some (.plain .LDA [.imm 0x3C])) ∧
      parseTokens [['L', 'D', 'A'], ['$', '0', '0', '1', '0']] = some (.plain .LDA [.addr 0x10]) ∧
      parseTokens [['L', 'D', 'B'], ['A']] = some (.plain .LDB [.reg .a]) ∧
      parseTokens [['J', 'M', 'P'], ['C'], ['L']] = some (.jump (some .c) ['L']) ∧
      parseTokens [['L', ':']] = some (.label ['L']) ∧ parseTokens (lineTokens [' ', ';', 'A']) = some .empty := by decide

/-- R83: an undefined register name, a malformed literal, an unrecognised mnemonic. -/
theorem test_parse_errors :
    parseTokens [['L', 'D', 'A'], ['D']] = none ∧ parseTokens [['L', 'D', 'A'], ['0', 'x', 'G']] = none ∧
      parseTokens [['H', 'L', 'T']] = none := by decide

/-- R84: how the comma of `JMP Z,L` and `ADD A,B` is tokenised is open, and the lines are refused (log entry 29); with white
space between the operands, the model's choice (log entry 31), the first is opcode 0x14 (R82). -/
theorem test_parse_commas :
    parseTokens (lineTokens ['J', 'M', 'P', ' ', 'Z', ',', 'L']) = none ∧
      parseTokens (lineTokens ['A', 'D', 'D', ' ', 'A', ',', 'B']) = none ∧
      (((parseTokens (lineTokens ['J', 'M', 'P', ' ', 'Z', ' ', 'L'])).bind
        (SourceLine.bytes fun _ => some 0x40)) = some [0x14, 0x00, 0x40]) := by decide

/-- The model's choice (log entry 32): `LDA 5 6`, `NOP 5`, `LDA` and `JMP Z L L` are refused. -/
theorem test_operand_count :
    encodeLine .LDA [.imm 5, .imm 6] = none ∧ encodeLine .NOP [.imm 5] = none ∧ encodeLine .LDA [] = none ∧
      parseTokens [['J', 'M', 'P'], ['Z'], ['L'], ['L']] = none := by decide

/-- A keyword names no label, and the spec's own label names do (programs P2, P3). -/
theorem test_label_names :
    labelName ['Z'] = none ∧ labelName ['C', 'P'] = none ∧ labelName ['L', ','] = none ∧
      labelName ['l', 'o', 'o', 'p'] = some ['l', 'o', 'o', 'p'] ∧ labelName ['L'] = some ['L'] := by decide

/-! ## One step of each instruction -/

/-- The parameters of R5 agree with the types. -/
theorem test_config_widths :
    config.xlen = 8 ∧ config.nreg = 3 ∧ config.pclen = 16 ∧ config.alen = 16 ∧ config.progSize = 4096 ∧
      config.dataSize = 4096 := by decide

/-- S4: a single NOP. -/
theorem test_nop : after (codeState 0 [0x00]) verdict = some (.haltNop, ⟨0, 0⟩, 0x0001) := by decide

/-- V34: a NOP at the last address. -/
theorem test_nop_at_end : after (codeState 0x0FFF [0x00]) verdict = some (.haltNop, ⟨0, 0⟩, 0x1000) := by decide

/-- V83. -/
theorem test_fill :
    after (codeState 0x000C [0xFF]) (fun t => (t.pc, t.status)) = some (0x000D, .running) := by decide

/-- V33, its last cycle but one: a FILL at the last address leaves `pc` at 4096, still Running. -/
theorem test_fill_at_end :
    after (codeState 0x0FFF [0xFF]) (fun t => (t.pc, t.status)) = some (0x1000, .running) := by decide

/-- The example of R120. -/
theorem test_ldaImm : after (codeState 0 [0x01, 0x05]) core5 = some (0x05, 0, 0, false, false, 0x0002) := by decide

/-- V36: loading zero does not set Z. -/
theorem test_ldaImm_zero : after (codeState 0 [0x01, 0x00]) core5 = some (0, 0, 0, false, false, 0x0002) := by decide

/-- V45. -/
theorem test_ldbImm :
    after { codeState 0 [0x04, 0x7F] with flags := ⟨true, true⟩ } core5 =
      some (0, 0x7F, 0, true, true, 0x0002) := by decide

/-- The example of R122. -/
theorem test_ldcImm : after (codeState 0 [0x07, 0xFF]) core5 = some (0, 0, 0xFF, false, false, 0x0002) := by decide

/-- V37. -/
theorem test_ldaReg :
    after { codeState 0 [0x02, 0x01] with a := 0x11, b := 0x22 } core5 =
      some (0x22, 0x22, 0, false, false, 0x0002) := by decide

/-- V42. -/
theorem test_ldaReg_bad :
    after { codeState 0 [0x02, 0x03] with a := 0x11 } (fun t => (verdict t, t.a)) =
      some ((.faultBadRegister, ⟨0x0000, 0x03⟩, 0x0002), 0x11) := by decide

/-- The example of R124. -/
theorem test_ldbReg :
    after { codeState 0 [0x05, 0x00] with a := 0x11, b := 0x22 } core5 =
      some (0x11, 0x11, 0, false, false, 0x0002) := by decide

/-- The example of R125. -/
theorem test_ldcReg :
    after { codeState 0 [0x08, 0x00] with a := 0xF0 } core5 = some (0xF0, 0, 0xF0, false, false, 0x0002) := by decide

/-- V40: the last legal address. -/
theorem test_sta :
    after { codeState 0 [0x03, 0x0F, 0xFF] with a := 0x9C } (fun t => (t.dataByte 0x0FFF, t.pc)) =
      some (0x9C, 0x0003) := by decide

/-- V43: no wrap to address 0. -/
theorem test_sta_out_of_bounds :
    after { codeState 0 [0x03, 0x10, 0x00] with a := 0xAA } (fun t => (verdict t, t.data)) =
      some ((.faultDataOutOfBounds, ⟨0x1000, 0x03⟩, 0x0003), []) := by decide

/-- The example of R127. -/
theorem test_stb :
    after { codeState 0 [0x06, 0x01, 0x00] with b := 0xC3 } (fun t => t.data) = some [(0x0100, 0xC3)] := by decide

/-- V39. -/
theorem test_stc :
    after { codeState 0 [0x09, 0x00, 0x01] with c := 0x30 } (fun t => (t.dataByte 1, t.c, t.pc)) =
      some (0x30, 0x30, 0x0003) := by decide

/-- The example of R129. -/
theorem test_ldaAddr :
    after { codeState 0 [0x0A, 0x00, 0x20] with data := [(0x20, 0x07)] } core5 =
      some (0x07, 0, 0, false, false, 0x0003) := by decide

/-- V44. -/
theorem test_ldaAddr_out_of_bounds :
    after { codeState 0 [0x0A, 0x10, 0x00] with a := 0x55 } (fun t => (verdict t, t.a)) =
      some ((.faultDataOutOfBounds, ⟨0x1000, 0x0A⟩, 0x0003), 0x55) := by decide

/-- V47: wrap to zero, both flags. -/
theorem test_addRr_wraps :
    after { codeState 0 [0x0B, 0x00, 0x01] with a := 0xFF, b := 0x01 } core5 =
      some (0x00, 0x01, 0, true, true, 0x0003) := by decide

/-- V48: the source is the destination. -/
theorem test_addRr_same :
    after { codeState 0 [0x0B, 0x00, 0x00] with a := 0x81 } core5 =
      some (0x02, 0, 0, false, true, 0x0003) := by decide

/-- V49: operand order and borrow. -/
theorem test_subRr :
    after { codeState 0 [0x0C, 0x00, 0x01] with a := 0x03, b := 0x05 } core5 =
      some (0xFE, 0x05, 0, false, true, 0x0003) := by decide

/-- V58: the destination index is checked first. -/
theorem test_subRr_bad :
    after (codeState 0 [0x0C, 0x05, 0x09]) verdict = some (.faultBadRegister, ⟨0x0000, 0x05⟩, 0x0003) := by decide

/-- V52. -/
theorem test_addRi_zero :
    after { codeState 0 [0x0D, 0x01, 0x00] with flags := ⟨false, true⟩ } core5 =
      some (0, 0x00, 0, true, false, 0x0003) := by decide

/-- V57. -/
theorem test_addRi_bad :
    after { codeState 0 [0x0D, 0x03, 0x01] with a := 0x10 } (fun t => (verdict t, t.a)) =
      some ((.faultBadRegister, ⟨0x0000, 0x03⟩, 0x0003), 0x10) := by decide

/-- V53. -/
theorem test_subRi :
    after { codeState 0 [0x0E, 0x00, 0x01] with a := 0x01 } core5 =
      some (0x00, 0, 0, true, false, 0x0003) := by decide

/-- V54. -/
theorem test_subRi_borrow :
    after (codeState 0 [0x0E, 0x00, 0x01]) core5 = some (0xFF, 0, 0, false, true, 0x0003) := by decide

/-- V59. -/
theorem test_andRr :
    after { codeState 0 [0x0F, 0x02, 0x01] with c := 0xF0, b := 0x3C, flags := ⟨true, true⟩ } core5 =
      some (0, 0x3C, 0x30, true, true, 0x0003) := by decide

/-- V60. -/
theorem test_orRr :
    after { codeState 0 [0x10, 0x00, 0x01] with a := 0xCC, b := 0xC3 } core5 =
      some (0xCF, 0xC3, 0, false, false, 0x0003) := by decide

/-- V61. -/
theorem test_xorRr :
    after { codeState 0 [0x11, 0x00, 0x01] with a := 0xF0, b := 0x3C } core5 =
      some (0xCC, 0x3C, 0, false, false, 0x0003) := by decide

/-- V62: a zero result leaves Z clear. -/
theorem test_xorRr_same :
    after { codeState 0 [0x11, 0x01, 0x01] with b := 0x77 } core5 =
      some (0, 0x00, 0, false, false, 0x0003) := by decide

/-- V63. -/
theorem test_notR :
    after { codeState 0 [0x12, 0x01] with b := 0x3C } core5 = some (0, 0xC3, 0, false, false, 0x0002) := by decide

/-- V67. -/
theorem test_notR_bad :
    after (codeState 0 [0x12, 0x03]) verdict = some (.faultBadRegister, ⟨0x0000, 0x03⟩, 0x0002) := by decide

/-- V68. -/
theorem test_jmp : after (codeState 0x10 [0x13, 0x01, 0x00]) (fun t => t.pc) = some 0x0100 := by decide

/-- V76, its last cycle: the jump does not load `pc`. -/
theorem test_jmp_cut_short :
    after (codeState 0x0FFE [0x13, 0x00]) verdict = some (.faultProgOutOfBounds, ⟨0x1000, 0x13⟩, 0x1000) := by decide

/-- V69 and V70. -/
theorem test_jmpZ :
    after { codeState 0x10 [0x14, 0x00, 0x40] with flags := ⟨true, false⟩ } (fun t => t.pc) = some 0x0040 ∧
      after { codeState 0x10 [0x14, 0x00, 0x40] with flags := ⟨false, true⟩ } (fun t => t.pc) = some 0x0013 := by
  decide

/-- V71 and V72. -/
theorem test_jmpNz :
    after { codeState 0x10 [0x15, 0x00, 0x02] with flags := ⟨false, true⟩ } (fun t => t.pc) = some 0x0002 ∧
      after { codeState 0x10 [0x15, 0x00, 0x02] with flags := ⟨true, false⟩ } (fun t => t.pc) = some 0x0013 := by
  decide

/-- V73 and V74: Z is ignored. -/
theorem test_jmpC :
    after { codeState 0x10 [0x16, 0x00, 0x15] with flags := ⟨true, true⟩ } (fun t => t.pc) = some 0x0015 ∧
      after { codeState 0x10 [0x16, 0x00, 0x15] with flags := ⟨true, false⟩ } (fun t => t.pc) = some 0x0013 := by
  decide

/-- V75. -/
theorem test_jmpNc :
    after (codeState 0x10 [0x17, 0x00, 0x1A]) (fun t => t.pc) = some 0x001A ∧
      after { codeState 0x10 [0x17, 0x00, 0x1A] with flags := ⟨false, true⟩ } (fun t => t.pc) = some 0x0013 := by
  decide

/-- V77: stale bits are overwritten. -/
theorem test_cp_equal :
    after { codeState 0 [0x18, 0x05] with a := 0x05, flags := ⟨false, true⟩ } core5 =
      some (0x05, 0, 0, true, false, 0x0002) := by decide

/-- V80: the compare is unsigned. -/
theorem test_cp_unsigned :
    after { codeState 0 [0x18, 0x80] with a := 0x7F } core5 = some (0x7F, 0, 0, false, true, 0x0002) := by decide

/-! ## Stops and faults of the cycle -/

/-- V30: the first step from reset, with nothing loaded. -/
theorem test_empty_image : after State.reset verdict = some (.haltNop, ⟨0, 0⟩, 0x0001) := by decide

/-- V32, its second cycle. -/
theorem test_haltEnd :
    after { codeState 0 [] with pc := 0x2000 } verdict = some (.haltEnd, ⟨0, 0⟩, 0x2000) := by decide

/-- V85, its last cycle. -/
theorem test_illegal_at_end :
    after (codeState 0x0FFF [0x42]) verdict = some (.faultIllegalOpcode, ⟨0x0FFF, 0x42⟩, 0x1000) := by decide

/-- V87, its last cycle: the missing byte outranks the bad index. -/
theorem test_missing_outranks_bad :
    after (codeState 0x0FFE [0x0B, 0x07]) verdict = some (.faultProgOutOfBounds, ⟨0x1000, 0x0B⟩, 0x1000) := by decide

/-- The status codes of R221. -/
theorem test_status_codes :
    [Status.running, .haltNop, .haltEnd, .faultIllegalOpcode, .faultProgOutOfBounds, .faultDataOutOfBounds,
      .faultBadRegister].map Status.code = [0, 1, 2, 3, 4, 5, 6] := by decide

/-- The host's way of placing an instruction: the next step runs it. -/
theorem test_withFetchWord :
    after (State.reset.withFetchWord 16 0x2A01) core5 = some (0x2A, 0, 0, false, false, 0x0002) := by decide

/-! ## Witnesses: the hypotheses of each obligation are met, at the edges of their ranges -/

/-- `bytes` placed at `pc` inside the store are next. -/
theorem codeState_about (pc : Addr) (bytes : List Byte) (h : pc.toNat + bytes.length ≤ 4096)
    (hb : ∀ (k : Nat) (hk : k < bytes.length), (codeState pc bytes).progByte (pc.toNat + k) = bytes[k]) :
    (codeState pc bytes).about bytes :=
  ⟨rfl, h, hb⟩

/-- Legal operands at the top of each field, one row of every format. -/
theorem witness_EncodeRowThenDecodeRecoversRowAndOperands :
    legalOperands .nop [] ∧ legalOperands .ldaImm [255] ∧ legalOperands .cp [0] ∧ legalOperands .notR [2] ∧
      legalOperands .sta [65535] ∧ legalOperands .xorRr [2, 0] ∧ legalOperands .subRi [0, 255] :=
  ⟨rfl, ⟨255, rfl, by decide⟩, ⟨0, rfl, by decide⟩, ⟨2, rfl, by decide⟩, ⟨65535, rfl, by decide⟩,
    ⟨2, 0, rfl, by decide, by decide⟩, ⟨0, 255, rfl, by decide, by decide⟩⟩

/-- Both sides of the equivalence hold, and both fail. -/
theorem witness_EncoderAcceptsExactlyLegalOperands :
    (∃ bytes, encodeRow .addRr [2, 2] = some bytes) ∧ encodeRow .addRr [3, 2] = none ∧
      (∃ bytes, encodeRow .ldaImm [255] = some bytes) ∧ encodeRow .ldaImm [256] = none ∧
      (∃ bytes, encodeRow .jmp [65535] = some bytes) ∧ encodeRow .jmp [65536] = none :=
  ⟨⟨_, rfl⟩, rfl, ⟨_, rfl⟩, rfl, ⟨_, rfl⟩, rfl⟩

theorem witness_DecodeAnswersExactlyTheEncodedInstruction :
    decode ([0x0B, 0xFF, 0x01] ++ [0x00]) = .instr (.addRr 0xFF 0x01) [0x00] ∧
      [0x0B, 0xFF, 0x01] = encode (.addRr 0xFF 0x01) := by decide

/-- The edges of the illegal range, and the rows next to them. -/
theorem witness_DecoderRejectsByName :
    decode [0x19, 0x00] = .illegal 0x19 ∧ decode [0xFE] = .illegal 0xFE ∧ decode [0x18] = .missingOperand 0x18 ∧
      decode [0xFF] = .instr .fill [] ∧ decode [0x03, 0x00] = .missingOperand 0x03 := by decide

theorem witness_AddressOperandIsHighByteFirst :
    Opcode.sta.format = .f2a ∧ Opcode.ldaAddr.format = .f2a ∧ Opcode.jmpNc.format = .f2a := by decide

/-- A label with a jump to it before and after. -/
theorem witness_AssembledLabelIsTheAddressThatFollowsIt :
    assemble ([.jump none ['L'], .plain .CP [.imm 5]] ++ .label ['L'] :: [.jump none ['L']]) =
      some [0x13, 0x00, 0x06, 0x18, 0x05, 0xFF, 0x13, 0x00, 0x06] := by decide

theorem witness_StepRunsDecodedInstruction :
    (codeState 0x0FFD [0x0B, 0x07, 0x01]).status = .running ∧
      decode (codeState 0x0FFD [0x0B, 0x07, 0x01]).window = .instr (.addRr 0x07 0x01) [] := by decide

/-- An instruction of each length that ends at the last byte of the store. -/
theorem witness_StepRunsEncodedInstructionAtPc :
    (codeState 0x0FFF [0xFF]).about (encode .fill) ∧
      (codeState 0x0FFE [0x01, 0x07]).about (encode (.ldaImm 0x07)) ∧
      (codeState 0x0FFD [0x03, 0x01, 0x23]).about (encode (.sta 0x0123)) :=
  ⟨codeState_about _ _ (by decide) (by decide), codeState_about _ _ (by decide) (by decide),
    codeState_about _ _ (by decide) (by decide)⟩

theorem witness_StoppedCoreNeverChanges :
    ({ codeState 0 [0xFF] with status := .haltEnd } : State).ended ∧
      ({ codeState 0 [0xFF] with status := .faultBadRegister } : State).ended :=
  ⟨Status.noConfusion, Status.noConfusion⟩

/-- The first clause at both ends of its range; the second by a jump to 0x1001; the third by a FILL at the last byte. -/
theorem witness_EndOfProgramStoreStopsTheRun :
    ({ codeState 0 [] with pc := 0x1000 } : State).status = .running ∧ 4096 ≤ (0x1000 : Addr).toNat ∧
      4096 ≤ (0xFFFF : Addr).toNat ∧
      (∃ t, step (codeState 0 [0x13, 0x10, 0x01]) = .next t ∧ 4096 < t.pc.toNat) ∧
      ∃ t, step (codeState 0x0FFF [0xFF]) = .next t ∧ t.status = .running ∧ t.pc.toNat = 4096 :=
  ⟨rfl, by decide, by decide, ⟨_, rfl, by decide⟩, _, rfl, rfl, by decide⟩

/-- Both ends of the illegal range, one of them at the last byte of the store. -/
theorem witness_IllegalOpcodeFaults :
    (codeState 0x0FFF [0x19]).about [0x19] ∧ (codeState 0 [0xFE]).about [0xFE] ∧
      0x19 ≤ (0x19 : Byte).toNat ∧ (0xFE : Byte).toNat ≤ 0xFE :=
  ⟨codeState_about _ _ (by decide) (by decide), codeState_about _ _ (by decide) (by decide), by decide, by decide⟩

/-- A two-byte row at 4095, a three-byte row at 4095 and at 4094. -/
theorem witness_MissingOperandFaults :
    (codeState 0x0FFF [0x01]).cutShort Opcode.ldaImm.toByte Opcode.ldaImm.length ∧
      (codeState 0x0FFF [0x13]).cutShort Opcode.jmp.toByte Opcode.jmp.length ∧
      (codeState 0x0FFE [0x0B]).cutShort Opcode.addRr.toByte Opcode.addRr.length :=
  ⟨⟨codeState_about _ _ (by decide) (by decide), by decide⟩, ⟨codeState_about _ _ (by decide) (by decide), by decide⟩,
    ⟨codeState_about _ _ (by decide) (by decide), by decide⟩⟩

theorem witness_StepKeepsStoresCanonical :
    (codeState 0 [0x03, 0x0F, 0xFF]).wf ∧ ∃ t, step (codeState 0 [0x03, 0x0F, 0xFF]) = .next t :=
  ⟨by decide, _, rfl⟩

theorem witness_ProgramStoreNeverChangesDuringARun :
    ∃ t, core.run 1 { codeState 0 [0x03, 0x00, 0x01] with a := 0x2A } = .next t := ⟨_, rfl⟩

/-- A running state, and a state for each kind of terminal status, that is explained and has a next state. -/
theorem witness_StepKeepsTerminalStatusExplained :
    (codeState 0 [0x03, 0x10, 0x00]).terminalExplained ∧ (∃ t, step (codeState 0 [0x03, 0x10, 0x00]) = .next t) ∧
      ({ codeState 0 [] with pc := 0x1000, status := .haltEnd } : State).terminalExplained ∧
      ({ codeState 0 [] with pc := 3, status := .faultBadRegister, faultInfo := ⟨0, 3⟩ } : State).terminalExplained :=
  ⟨trivial, ⟨_, rfl⟩, by unfold State.terminalExplained; decide, by unfold State.terminalExplained; decide⟩

/-- A step that does not fault, a stop, and a step of a stopped core. -/
theorem witness_FaultInfoIsWrittenOnlyByFaults :
    (∃ t, step (codeState 0 [0xFF]) = .next t ∧ t.status.isFault = false) ∧
      (∃ t, step (codeState 0 [0x00]) = .next t ∧ t.status.isFault = false) ∧
      ({ codeState 0 [] with status := .faultBadRegister } : State).status ≠ .running :=
  ⟨⟨_, rfl, rfl⟩, ⟨_, rfl, rfl⟩, Status.noConfusion⟩

/-- A step into each of the six terminal statuses; BadRegister from a two-byte and from a three-byte row. -/
theorem witness_EndingStepIsPrecise :
    after (codeState 0 [0x00]) State.status = some .haltNop ∧
      after { codeState 0 [] with pc := 0xFFFF } State.status = some .haltEnd ∧
      after (codeState 0 [0x19]) State.status = some .faultIllegalOpcode ∧
      after (codeState 0x0FFE [0x0B, 0x07]) State.status = some .faultProgOutOfBounds ∧
      after (codeState 0 [0x03, 0xFF, 0xFF]) State.status = some .faultDataOutOfBounds ∧
      after (codeState 0 [0x12, 0x03]) State.status = some .faultBadRegister ∧
      after (codeState 0 [0x0B, 0x00, 0xFF]) State.status = some .faultBadRegister := by decide

theorem witness_RegisterReadAndWriteTableIsExhaustive :
    Reg.b ∉ regsWritten (.addRr 0 1) ∧ Reg.c ∉ regsRead (.addRr 0 1) ∧ Reg.a ∉ regsRead (.ldaImm 0x05) ∧
      Reg.a ∈ regsWritten (.ldaImm 0x05) ∧
      (∃ t, exec (.ldaImm 0x05) State.reset = .next t ∧ t.status.isFault = false) ∧
      ∃ t, exec (.ldaImm 0x05) (State.reset.set .a 0xFF) = .next t :=
  ⟨by decide, by decide, by decide, by decide, ⟨_, rfl, rfl⟩, _, rfl⟩

theorem witness_FlagReadersAndWritersAreExhaustive :
    writesFlags (.xorRr 0 0) = false ∧ readsFlags (.cp 0x05) = false ∧ writesFlags (.cp 0x05) = true ∧
      (∃ t, exec (.xorRr 0 0) State.reset = .next t) ∧
      (∃ t, exec (.cp 0x05) State.reset = .next t ∧ t.status.isFault = false) ∧
      ∃ t, exec (.cp 0x05) (State.reset.setFlags ⟨true, true⟩) = .next t :=
  ⟨rfl, rfl, rfl, ⟨_, rfl⟩, ⟨_, rfl, rfl⟩, _, rfl⟩

/-- A store at the last data byte, an instruction that loads nothing, and two program stores that agree at `pc`. -/
theorem witness_StoreAccessesAreExhaustive :
    State.reset.wf ∧ (∃ t, exec (.stc 0x0FFF) State.reset = .next t) ∧ loadAddr (.stc 0x0FFF) = none ∧
      (∃ t, exec (.stc 0x0FFF) { State.reset with data := [(1, 1)] } = .next t) ∧
      ({ codeState 0 [0x01, 0x05] with prog := [(0, 0x01), (1, 0x05), (9, 0xFF)] } : State).window =
        (codeState 0 [0x01, 0x05]).window ∧
      ∃ t, step (codeState 0 [0x01, 0x05]) = .next t :=
  ⟨by decide, ⟨_, rfl⟩, rfl, ⟨_, rfl⟩, by decide, _, rfl⟩

theorem witness_PcAdvancesByLengthUnlessAJumpIsTaken :
    jumpTarget (.addRr 0 3) = none ∧ (∃ t, exec (.addRr 0 3) State.reset = .next t) ∧ jumpTarget .nop = none ∧
      ∃ t, exec .nop State.reset = .next t := ⟨rfl, ⟨_, rfl⟩, rfl, _, rfl⟩

/-- `bytesRun`'s hypotheses, for one, two and three bytes. -/
theorem witness_bytesRun :
    (codeState 0x0FFF [0xFF]).about [0xFF] ∧ (codeState 0x0FFE [0x18, 0xFF]).about [0x18, 0xFF] ∧
      (codeState 0x0FFD [0x0F, 0x02, 0x01]).about [0x0F, 0x02, 0x01] ∧
      (codeState 0x0FFF [0x18]).cutShort 0x18 [(0x18 : Byte), 0xFF].length ∧
      (codeState 0x0FFE [0x0F]).cutShort 0x0F [(0x0F : Byte), 0x02, 0x01].length ∧
      (codeState 0x0FFF [0x0F]).cutShort 0x0F [(0x0F : Byte), 0x02, 0x01].length :=
  ⟨codeState_about _ _ (by decide) (by decide), codeState_about _ _ (by decide) (by decide),
    codeState_about _ _ (by decide) (by decide), ⟨codeState_about _ _ (by decide) (by decide), by decide⟩,
    ⟨codeState_about _ _ (by decide) (by decide), by decide⟩,
    ⟨codeState_about _ _ (by decide) (by decide), by decide⟩⟩

/-- Index bytes at the edge: 2 names C, 3 names none. The same meets LoadRegisterCopiesTheSource,
AddWritesSumAndBothFlags, SubWritesDifferenceAndBothFlags, BitwiseWritesTargetOnly and NotComplementsItsRegister. -/
theorem witness_LoadRegisterCopiesTheSource :
    regOfIndex 0 = some .a ∧ regOfIndex 1 = some .b ∧ regOfIndex 2 = some .c ∧ regOfIndex 3 = none ∧
      regOfIndex 0xFF = none := by decide

theorem witness_BadRegisterFaults :
    firstBadIndex (.ldaReg 3) = some 3 ∧ firstBadIndex (.addRr 5 9) = some 5 ∧ firstBadIndex (.addRr 2 0xFF) = some 0xFF ∧
      firstBadIndex (.subRi 3 0) = some 3 ∧ firstBadIndex (.addRr 2 2) = none := by decide

/-- The first clause at the last legal address, the second at the first illegal one and at the top. -/
theorem witness_StoreWritesOneDataByte :
    State.reset.wf ∧ (0x0FFF : Addr).toNat < 4096 ∧ 4096 ≤ (0x1000 : Addr).toNat ∧ 4096 ≤ (0xFFFF : Addr).toNat := by
  decide

theorem witness_LoadFromAddressReadsOneDataByte :
    (0x0FFF : Addr).toNat < 4096 ∧ 4096 ≤ (0x1000 : Addr).toNat ∧
      ∃ t, exec (.ldaAddr 0x0FFF) { State.reset with data := [(0x0FFF, 0x2A)] } = .next t ∧ t.a = 0x2A :=
  ⟨by decide, by decide, _, rfl, rfl⟩

/-- A store to the last byte, another store between, and the load. -/
theorem witness_LoadAnswersTheLastStoredByte :
    ∃ t u v, State.reset.wf ∧ exec (.sta 0x0FFF) { State.reset with a := 0x2A } = .next t ∧
      exec (.stb 0x0FFE) t = .next u ∧ (∀ x, storeOf (.stb 0x0FFE) = some x → x.1 ≠ 0x0FFF) ∧
      exec (.ldaAddr 0x0FFF) u = .next v :=
  ⟨_, _, _, by decide, rfl, rfl, fun x h => by cases h; decide, rfl⟩

/-- The lowest and the highest address past the store, and a step that raises the fault. -/
theorem witness_DataAccessOutOfBoundsFaults :
    4096 ≤ (0x1000 : Addr).toNat ∧ 4096 ≤ (0xFFFF : Addr).toNat ∧
      Instr.ldaAddr 0x1000 ∈ [Instr.sta 0x1000, .stb 0x1000, .stc 0x1000, .ldaAddr 0x1000] ∧
      after (codeState 0 [0x0A, 0x10, 0x00]) State.status = some .faultDataOutOfBounds := by decide

/-- The lowest and the highest target past the store. -/
theorem witness_JumpPastTheStoreStopsOneCycleLater :
    (codeState 0x0FFD [0x13, 0x10, 0x00]).about [0x13, 0x10, 0x00] ∧
      4096 ≤ 256 * (0x10 : Byte).toNat + (0x00 : Byte).toNat ∧
      (codeState 0 [0x13, 0xFF, 0xFF]).about [0x13, 0xFF, 0xFF] ∧
      4096 ≤ 256 * (0xFF : Byte).toNat + (0xFF : Byte).toNat :=
  ⟨codeState_about _ _ (by decide) (by decide), by decide, codeState_about _ _ (by decide) (by decide), by decide⟩

/-- S1, S2, S3: one witness of each relation. -/
theorem witness_CompareOutcomeIsOneOfThree :
    ({ State.reset with a := 0x05 } : State).a.toNat = (0x05 : Byte).toNat ∧
      (0x05 : Byte).toNat < ({ State.reset with a := 0x07 } : State).a.toNat ∧
      ({ State.reset with a := 0x03 } : State).a.toNat < (0x05 : Byte).toNat := by decide

theorem witness_CompareWithFillerTakesTwoCycles :
    (codeState 0x0FFD [0x18, 0x05, 0xFF]).about [0x18, 0x05, 0xFF] :=
  codeState_about _ _ (by decide) (by decide)

/-- The longest image that loads, the shortest that does not, and the empty one. -/
theorem witness_ResetWithImageLoadsItAtZero :
    (List.replicate 4096 (0xFF : Byte)).length ≤ 4096 ∧ 4096 < (List.replicate 4097 (0xFF : Byte)).length ∧
      ([] : List Byte).length ≤ 4096 := by
  simp only [List.length_replicate, List.length_nil]
  decide

theorem witness_ExecutionBeginsWithTheFirstImageByte :
    [(0x01 : Byte), 0x05, 0x00].head? = some 0x01 ∧ (∃ s, resetWith [0x01, 0x05, 0x00] = .next s) ∧
      [(0x01 : Byte), 0x05, 0x00] = encode (.ldaImm 0x05) ++ [0x00] :=
  ⟨rfl, ⟨_, rfl⟩, rfl⟩

theorem witness_HostMovesOnlyAStoppedCore :
    State.reset.status = .running ∧ ({ State.reset with status := .haltNop } : State).ended ∧
      ([0x01, 0x05] : List Byte).length ≤ 4096 :=
  ⟨rfl, Status.noConfusion, by decide⟩

theorem witness_NonZeroCellsAreTheListedCells :
    ({ State.reset with data := [(0, 0x07), (0x0FFF, 0xFF)] } : State).wf := by decide

end Sys2Proof.Tests
end

section
/-! The program counter after one instruction and the three registers (spec/10_state.md R21, R24). -/

namespace Sys2Proof.Machine

/-- No ending of an instruction that carries no target, a stop and a fault among them, leaves `pc` anywhere but past it. -/
theorem exec_pc_of_no_target (i : Instr) (s t : State) (hi : jumpTarget i = none) (h : exec i s = .next t) :
    t.pc = s.pc + BitVec.ofNat 16 i.length := by
  rcases exec_cases i s t h with ⟨-, -, hpc | hjump⟩ | ⟨rfl, rfl⟩ | ⟨b, -, rfl, -⟩ | ⟨a, -, rfl, hlen, -⟩
  case inl.inl => exact hpc
  case inl.inr => simp [hi] at hjump
  case inr.inl => rfl
  case inr.inr.inl => rfl
  case inr.inr.inr => rw [hlen]; rfl

/-- A three-byte jump taken on `cond`. -/
theorem jumpIf_pc (op : Opcode) (hop : op.length = 3) (cond : Bool) (target : Addr) (s : State) :
    (jumpIf op cond target s).pc = if cond then target else s.pc + 3 := by
  rcases jumpIf_spec op cond target s with ⟨rfl, h⟩ | ⟨rfl, h⟩
  · rw [h]; rfl
  · rw [h, hop]; rfl

/-- A three-byte jump taken on the absence of `cond`. -/
theorem jumpIf_not_pc (op : Opcode) (hop : op.length = 3) (cond : Bool) (target : Addr) (s : State) :
    (jumpIf op (!cond) target s).pc = if cond then s.pc + 3 else target := by
  rw [jumpIf_pc op hop]
  cases cond <;> rfl

/-- Settles O28: an instruction without a target by the ways `exec` can end, the jumps by their condition. -/
theorem pcAdvancesByLengthUnlessAJumpIsTaken : Obligations.PcAdvancesByLengthUnlessAJumpIsTaken :=
  ⟨exec_pc_of_no_target,
    fun a s => ⟨_, rfl, jumpIf_pc .jmp rfl true a s⟩,
    fun a s => ⟨_, rfl, jumpIf_pc .jmpZ rfl s.flags.zero a s⟩,
    fun a s => ⟨_, rfl, jumpIf_not_pc .jmpNz rfl s.flags.zero a s⟩,
    fun a s => ⟨_, rfl, jumpIf_pc .jmpC rfl s.flags.carry a s⟩,
    fun a s => ⟨_, rfl, jumpIf_not_pc .jmpNc rfl s.flags.carry a s⟩⟩

/-- Settles O29: a read after a write is `State.get_set`; the names and the numbers are the definitions. -/
theorem registersAreIndependentAndNumbered : Obligations.RegistersAreIndependentAndNumbered :=
  ⟨State.get_set, fun s => ⟨s.get_a, s.get_b, s.get_c⟩, rfl, rfl, rfl⟩

end Sys2Proof.Machine
end

section
/-! The two stores (spec/20_memory.md): the address operand and its byte order (R43), the program store under a run (R53),
and a data access past the end of the data store (R46). -/

namespace Sys2Proof

/-- The rows of format F2A (R66). -/
theorem Opcode.format_eq_f2a (op : Opcode) :
    op.format = .f2a ↔ op ∈ [Opcode.sta, .stb, .stc, .ldaAddr, .jmp, .jmpZ, .jmpNz, .jmpC, .jmpNc] := by
  cases op <;> decide

/-- A row of format F2A takes two bytes as one address, the first of them its high byte (R43). -/
theorem Opcode.takeOperands_f2a (op : Opcode) (hi lo : Byte) (rest : List Byte) (h : op.format = .f2a) :
    ∃ i : Instr, op.takeOperands (hi :: lo :: rest) = some (i, rest) ∧ i.opcode = op ∧
      i.operandValues = [(addrOfBytes hi lo).toNat] := by
  cases op
  case sta | stb | stc | ldaAddr | jmp | jmpZ | jmpNz | jmpC | jmpNc => exact ⟨_, rfl, rfl, rfl⟩
  all_goals cases h

/-- Settles O6: what an F2A row takes, with the value of two bytes as an address. -/
theorem addressOperandIsHighByteFirst : Obligations.AddressOperandIsHighByteFirst := by
  refine ⟨Opcode.format_eq_f2a, fun op hi lo rest hop => ?_⟩
  obtain ⟨i, htake, hrow, hvalue⟩ := op.takeOperands_f2a hi lo rest hop
  rw [addrOfBytes_toNat] at hvalue
  have hdecode : decode (op.toByte :: hi :: lo :: rest) = .instr i rest := by rw [decode_cons, htake]
  exact ⟨i, hdecode, hrow, hvalue⟩

end Sys2Proof

namespace Sys2Proof.Machine

/-- A run of `k + 1` steps that does not stop is a step and a run of `k` from where it leads. -/
theorem run_succ_eq_next (M : Host.Core) (k : Nat) (s t : M.State) :
    M.run (k + 1) s = .next t ↔ ∃ u, M.step s = .next u ∧ M.run k u = .next t := by
  rw [Host.Core.run]
  cases M.step s <;> simp

/-- What every step keeps, every run keeps. -/
theorem run_keeps (M : Host.Core) (P : M.State → Prop) (hstep : ∀ u v, M.step u = .next v → P u → P v)
    (n : Nat) (s t : M.State) (h : M.run n s = .next t) (hs : P s) : P t := by
  induction n generalizing s with
  | zero => cases h; exact hs
  | succ k ih =>
    obtain ⟨u, hu, hrun⟩ := (run_succ_eq_next M k s t).1 h
    exact ih u hrun (hstep s u hu hs)

/-- No step writes the program store (R53). -/
theorem step_prog (s t : State) (h : step s = .next t) : t.prog = s.prog := by
  by_cases hs : s.status = .running
  · rcases step_running s hs with ⟨-, hst⟩ | ⟨op, -, hst⟩ | ⟨op, -, hst⟩ | ⟨i, rest, -, hst⟩ <;> rw [hst] at h
    case inr.inr.inr => exact (exec_stores i s t h).1
    all_goals cases h; rfl
  · rw [step_stopped s hs] at h
    cases h; rfl

/-- Settles O20: having the first state's program store is what every step, and so every run, keeps. -/
theorem programStoreNeverChangesDuringARun : Obligations.ProgramStoreNeverChangesDuringARun := by
  intro n s t h
  have hprog : t.prog = s.prog :=
    run_keeps core (fun u : State => u.prog = s.prog) (fun u v huv hu => (step_prog u v huv).trans hu) n s t h rfl
  exact ⟨hprog, fun a => congrArg (Memory.read config.progFill · a) hprog⟩

/-- A store past the end of the data store raises the fault whatever byte it was to write (R46, R227). -/
theorem storeByte_outOfBounds (op : Opcode) (addr : Addr) (v : Byte) (s : State) (h : 4096 ≤ addr.toNat) :
    storeByte op addr v s = (s.advance op.length).raise (.dataOutOfBounds addr op.toByte) := by
  rcases storeByte_spec op addr v s with ⟨hin, -⟩ | ⟨-, hfault⟩
  · omega
  · exact hfault

/-- A load past the end of the data store raises the fault whatever was to be done with the byte (R46, R227). -/
theorem withLoad_outOfBounds (op : Opcode) (addr : Addr) (s : State) (act : Byte → State → State)
    (h : 4096 ≤ addr.toNat) :
    withLoad op addr s act = (s.advance op.length).raise (.dataOutOfBounds addr op.toByte) := by
  rcases withLoad_spec op addr s act with ⟨hin, -⟩ | ⟨-, hfault⟩
  · omega
  · exact hfault

/-- The four instructions that access data, past the end of the data store. -/
theorem exec_outOfBounds (addr : Addr) (s : State) (h : 4096 ≤ addr.toNat) (i : Instr)
    (hi : i ∈ [Instr.sta addr, .stb addr, .stc addr, .ldaAddr addr]) :
    exec i s = .next ((s.advance 3).raise (.dataOutOfBounds addr i.opcode.toByte)) := by
  simp only [List.mem_cons, List.not_mem_nil, or_false] at hi
  rcases hi with rfl | rfl | rfl | rfl
  case inr.inr.inr => exact congrArg Host.Outcome.next (withLoad_outOfBounds .ldaAddr addr s _ h)
  all_goals exact congrArg Host.Outcome.next (storeByte_outOfBounds _ addr _ s h)

/-- An instruction of a running core ends in that fault only as one of the four, past the end of the data store. -/
theorem exec_faultDataOutOfBounds (i : Instr) (s t : State) (hs : s.status = .running) (h : exec i s = .next t)
    (ht : t.status = .faultDataOutOfBounds) :
    ∃ addr, i ∈ [Instr.sta addr, .stb addr, .stc addr, .ldaAddr addr] ∧ 4096 ≤ addr.toNat := by
  rcases exec_cases i s t h with ⟨hkept, -⟩ | ⟨-, rfl⟩ | ⟨b, -, rfl, -⟩ | ⟨addr, haddr, -, -, -, hi⟩
  case inl => rw [hkept, hs] at ht; cases ht
  case inr.inl | inr.inr.inl => cases ht
  case inr.inr.inr => exact ⟨addr, hi, haddr⟩

/-- Settles O37: the four instructions past the end, and by the ways a step can end no other step raises the fault. -/
theorem dataAccessOutOfBoundsFaults : Obligations.DataAccessOutOfBoundsFaults := by
  refine ⟨exec_outOfBounds, fun s t hs h ht => ?_⟩
  rcases step_running s hs with ⟨-, hst⟩ | ⟨op, -, hst⟩ | ⟨op, -, hst⟩ | ⟨i, rest, hdecode, hst⟩ <;> rw [hst] at h
  case inr.inr.inr =>
    obtain ⟨addr, hi, haddr⟩ := exec_faultDataOutOfBounds i s t hs h ht
    exact ⟨addr, rest, i, hdecode, hi, haddr⟩
  all_goals cases h; cases ht

end Sys2Proof.Machine
end

section
/-! The encoding (spec/30_encoding.md): an encoded instruction read back, the rows built from legal operand values (R72 to
R75), and the opcode bytes that select no row (R68). -/

namespace Sys2Proof

/-- A row takes an instruction's operand bytes back as that instruction and leaves what follows them. -/
theorem Opcode.takeOperands_operandBytes (i : Instr) (rest : List Byte) :
    i.opcode.takeOperands (i.operandBytes ++ rest) = some (i, rest) := by
  cases i
  case sta a | stb a | stc a | ldaAddr a | jmp a | jmpZ a | jmpNz a | jmpC a | jmpNc a =>
    simp [Instr.opcode, Opcode.takeOperands, Instr.operandBytes, addrBytes, takeAddr]
  all_goals rfl

/-- Decoding undoes encoding, whatever bytes follow and whatever the operand bytes are. -/
theorem decode_encode (i : Instr) (rest : List Byte) : decode (encode i ++ rest) = .instr i rest := by
  rw [encode, List.cons_append, decode_cons, Opcode.takeOperands_operandBytes]

/-- The reference encoder adds CP's filler and nothing else (R73). -/
theorem emit_eq_encode_append (i : Instr) :
    emit i = encode i ++ if i.opcode = .cp then [fillerByte] else [] := by
  unfold emit
  split
  case h_1 hcp => rw [if_pos hcp]
  case h_2 hcp => rw [if_neg hcp, List.append_nil]

/-- An immediate below 256 has its byte (R74). -/
theorem fitImm_of_lt {n : Nat} (h : n < 256) : ∃ x, fitImm n = some x ∧ x.toNat = n :=
  have hfit : fitImm n = some (BitVec.ofNat 8 n) := if_pos h
  ⟨_, hfit, ((fitImm_eq_some ..).1 hfit).2⟩

/-- A register index below 3 has its byte (R74). -/
theorem fitReg_of_lt {n : Nat} (h : n < 3) : ∃ x, fitReg n = some x ∧ x.toNat = n :=
  have hfit : fitReg n = some (BitVec.ofNat 8 n) := if_pos h
  ⟨_, hfit, ((fitReg_eq_some ..).1 hfit).2⟩

/-- An address below 65536 has its 16 bits (R74). -/
theorem fitAddr_of_lt {n : Nat} (h : n < 65536) : ∃ x, fitAddr n = some x ∧ x.toNat = n :=
  have hfit : fitAddr n = some (BitVec.ofNat 16 n) := if_pos h
  ⟨_, hfit, ((fitAddr_eq_some ..).1 hfit).2⟩

/-- A row's opcode byte is at most CP's, or it is FILL's (R66). -/
theorem Opcode.toByte_range (op : Opcode) : op.toByte.toNat < 0x19 ∨ op.toByte.toNat = 0xFF := by
  cases op <;> decide

/-- The bytes between CP's and FILL's select no row (R68). -/
theorem Opcode.ofByte_eq_none {b : Byte} (hlo : 0x19 ≤ b.toNat) (hhi : b.toNat ≤ 0xFE) : Opcode.ofByte b = none := by
  cases h : Opcode.ofByte b with
  | none => rfl
  | some op =>
    have hrange := op.toByte_range
    rw [Opcode.toByte_of_ofByte h] at hrange
    omega

/-- Such a byte is illegal whatever follows it. -/
theorem decode_illegal {b : Byte} (hlo : 0x19 ≤ b.toNat) (hhi : b.toNat ≤ 0xFE) (bs : List Byte) :
    decode (b :: bs) = .illegal b := by
  simp [decode, Opcode.ofByte_eq_none hlo hhi]

end Sys2Proof

namespace Sys2Proof.Machine

/-- Legal operand values build an instruction of the row that carries them, format by format (R61, R74). -/
theorem build_of_legalOperands (op : Opcode) (values : List Nat) (h : legalOperands op values) :
    ∃ i, op.build values = some i ∧ i.opcode = op ∧ i.operandValues = values := by
  cases op
  case nop | fill =>
    cases h
    exact ⟨_, rfl, rfl, rfl⟩
  case ldaImm | ldbImm | ldcImm | cp =>
    obtain ⟨n, rfl, hn⟩ := h
    obtain ⟨x, hfit, rfl⟩ := fitImm_of_lt hn
    exact ⟨_, (buildOne_eq_some ..).2 ⟨_, x, rfl, hfit, rfl⟩, rfl, rfl⟩
  case ldaReg | ldbReg | ldcReg | notR =>
    obtain ⟨r, rfl, hr⟩ := h
    obtain ⟨x, hfit, rfl⟩ := fitReg_of_lt hr
    exact ⟨_, (buildOne_eq_some ..).2 ⟨_, x, rfl, hfit, rfl⟩, rfl, rfl⟩
  case sta | stb | stc | ldaAddr | jmp | jmpZ | jmpNz | jmpC | jmpNc =>
    obtain ⟨a, rfl, ha⟩ := h
    obtain ⟨x, hfit, rfl⟩ := fitAddr_of_lt ha
    exact ⟨_, (buildOne_eq_some ..).2 ⟨_, x, rfl, hfit, rfl⟩, rfl, rfl⟩
  case addRr | subRr | andRr | orRr | xorRr =>
    obtain ⟨d, r, rfl, hd, hr⟩ := h
    obtain ⟨x, hfitD, rfl⟩ := fitReg_of_lt hd
    obtain ⟨y, hfitR, rfl⟩ := fitReg_of_lt hr
    exact ⟨_, (buildTwo_eq_some ..).2 ⟨_, _, x, y, rfl, hfitD, hfitR, rfl⟩, rfl, rfl⟩
  case addRi | subRi =>
    obtain ⟨d, n, rfl, hd, hn⟩ := h
    obtain ⟨x, hfitD, rfl⟩ := fitReg_of_lt hd
    obtain ⟨y, hfitN, rfl⟩ := fitImm_of_lt hn
    exact ⟨_, (buildTwo_eq_some ..).2 ⟨_, _, x, y, rfl, hfitD, hfitN, rfl⟩, rfl, rfl⟩

/-- Settles O1: legal values build an instruction of the row, and what the encoder emits for it, its encoding and CP's
filler, decodes to it with the filler left. -/
theorem encodeRowThenDecodeRecoversRowAndOperands : Obligations.EncodeRowThenDecodeRecoversRowAndOperands := by
  refine ⟨fun op values hlegal => ?_, decode_encode .fill []⟩
  obtain ⟨i, hbuild, hrow, hvalues⟩ := build_of_legalOperands op values hlegal
  have hdecode : decode (emit i) = .instr i (if op = .cp then [0xFF] else []) := by
    rw [emit_eq_encode_append, decode_encode, hrow]
    rfl
  exact ⟨emit i, i, congrArg (Option.map emit) hbuild, hdecode, hrow, hvalues⟩

/-- A running core with a byte next that selects no row consumes it and faults (R224). -/
theorem step_of_decode_illegal (s : State) (op : Byte) (hs : s.status = .running) (hd : decode s.window = .illegal op) :
    step s = .next ((s.advance 1).raise (.illegalOpcode s.pc op)) := by
  rcases step_running s hs with ⟨h, -⟩ | ⟨b, h, hst⟩ | ⟨b, h, -⟩ | ⟨i, rest, h, -⟩ <;> rw [hd] at h <;> cases h
  exact hst

/-- Settles O16: the byte at `pc` heads the window, and the window of such a byte is illegal. -/
theorem illegalOpcodeFaults : Obligations.IllegalOpcodeFaults := by
  rintro s op ⟨hs, hcode⟩ hlo hhi
  obtain ⟨rest, hwindow⟩ := s.window_of_codeAt [op] (by simp) hcode
  have hdecode : decode s.window = .illegal op := by rw [hwindow]; exact decode_illegal hlo hhi rest
  exact step_of_decode_illegal s op hs hdecode

end Sys2Proof.Machine
end

section
/-! Loads and stores (spec/41_load_store.md): an instruction's bytes as the machine runs them, whole or cut short (R101,
R225), the assembler forms of an immediate and of an address (R72, R79), the immediate loads (R120 to R122) and the byte
stores (R126 to R128). -/

namespace Sys2Proof

/-- A row's operand bytes are missing where fewer follow the opcode than its format has (R61). -/
theorem Opcode.takeOperands_eq_none (op : Opcode) (bs : List Byte) (h : bs.length < op.format.operandBytes) :
    op.takeOperands bs = none := by
  cases op
  case nop | fill => exact absurd h (Nat.not_lt_zero _)
  case ldaImm | ldaReg | ldbImm | ldbReg | ldcImm | ldcReg | notR | cp =>
    obtain rfl : bs = [] := List.eq_nil_of_length_eq_zero (Nat.lt_one_iff.1 h)
    rfl
  all_goals
    match bs, h with
    | [], _ => rfl
    | [_], _ => rfl

/-- The decoder names the opcode byte of an instruction whose operand bytes are missing. -/
theorem decode_missingOperand (op : Opcode) (bs : List Byte) (h : bs.length + 1 < op.length) :
    decode (op.toByte :: bs) = .missingOperand op.toByte := by
  have hmissing : bs.length < op.format.operandBytes := by
    rw [Opcode.length] at h
    omega
  rw [decode_cons, op.takeOperands_eq_none bs hmissing]

/-- An encoding is as long as its row says (R60). -/
theorem encode_length (i : Instr) : (encode i).length = i.opcode.length := by
  cases i <;> rfl

/-- An immediate's own value builds a one-operand row with that immediate. -/
theorem buildOne_fitImm (mk : Byte → Instr) (n : Byte) : buildOne fitImm mk [n.toNat] = some (mk n) :=
  (buildOne_eq_some ..).2 ⟨_, n, rfl, (fitImm_eq_some ..).2 ⟨n.isLt, rfl⟩, rfl⟩

/-- The value of two bytes builds an address row with the address they make (R43). -/
theorem buildOne_fitAddr (mk : Addr → Instr) (hi lo : Byte) :
    buildOne fitAddr mk [256 * hi.toNat + lo.toNat] = some (mk (addrOfBytes hi lo)) := by
  rw [← addrOfBytes_toNat]
  exact (buildOne_eq_some ..).2 ⟨_, _, rfl, (fitAddr_eq_some ..).2 ⟨(addrOfBytes hi lo).isLt, rfl⟩, rfl⟩

/-- The address two bytes make is the one with their value (R43). -/
theorem ofNat_eq_addrOfBytes (hi lo : Byte) : BitVec.ofNat 16 (256 * hi.toNat + lo.toNat) = addrOfBytes hi lo := by
  rw [← addrOfBytes_toNat, BitVec.ofNat_toNat, BitVec.setWidth_eq]

end Sys2Proof

namespace Sys2Proof.Machine

/-- A running core whose next bytes decode to an instruction executes it (R101). -/
theorem step_of_decode_instr (s : State) (i : Instr) (rest : List Byte) (hs : s.status = .running)
    (hd : decode s.window = .instr i rest) : step s = exec i s := by
  rcases step_running s hs with ⟨h, -⟩ | ⟨b, h, -⟩ | ⟨b, h, -⟩ | ⟨j, tail, h, hst⟩ <;> rw [hd] at h <;> cases h
  exact hst

/-- A running core with an operand byte missing consumes what there is and faults (R102, R225). -/
theorem step_of_decode_missingOperand (s : State) (op : Byte) (hs : s.status = .running)
    (hd : decode s.window = .missingOperand op) :
    step s = .next ((s.advance s.window.length).raise (.progOutOfBounds (s.advance s.window.length).pc op)) := by
  rcases step_running s hs with ⟨h, -⟩ | ⟨b, h, -⟩ | ⟨b, h, hst⟩ | ⟨i, rest, h, -⟩ <;> rw [hd] at h <;> cases h
  exact hst

/-- The bytes up to the end of the program store take `pc` to that end. -/
theorem State.pc_add_toEnd (s : State) (h : s.pc.toNat ≤ 4096) : s.pc + BitVec.ofNat 16 (4096 - s.pc.toNat) = 0x1000 := by
  apply BitVec.eq_of_toNat_eq
  rw [BitVec.toNat_add, BitVec.toNat_ofNat]
  show _ = 4096
  omega

/-- A running core whose next instruction the end of the program store cuts short faults there (R225). -/
theorem step_of_cutShort (s : State) (op : Opcode) (h : s.cutShort op.toByte op.length) :
    step s = .next (s.missingOperand op.toByte) := by
  obtain ⟨⟨hs, hcode⟩, hcut⟩ := h
  have hpc : s.pc.toNat + 1 ≤ 4096 := hcode.1
  obtain ⟨-, hmax⟩ := op.length_bounds
  simp only [config_progSize, maxLength] at hcut hmax
  obtain ⟨rest, hwindow⟩ := s.window_of_codeAt [op.toByte] (by simp) hcode
  have hlength : s.window.length = 4096 - s.pc.toNat := by
    rw [State.window_length]
    omega
  have hrest : rest.length + 1 = 4096 - s.pc.toNat := by rw [← hlength, hwindow]; rfl
  have hdecode : decode s.window = .missingOperand op.toByte := by
    rw [hwindow]
    exact decode_missingOperand op rest (by omega)
  rw [step_of_decode_missingOperand s op.toByte hs hdecode, hlength, State.advance, s.pc_add_toEnd (by omega)]
  rfl

/-- The machine reads every instruction's encoding as that instruction. -/
theorem bytesRun_encode (i : Instr) : bytesRun (encode i) i := by
  constructor
  · rintro s ⟨hs, hcode⟩
    have hlength : (encode i).length ≤ 3 := by
      rw [encode_length]
      exact i.opcode.length_bounds.2
    obtain ⟨rest, hwindow⟩ := s.window_of_codeAt (encode i) hlength hcode
    exact step_of_decode_instr s i rest hs (by rw [hwindow, decode_encode])
  · intro s op hop hcut
    obtain rfl : i.opcode.toByte = op := Option.some.inj hop
    rw [encode_length] at hcut
    exact step_of_cutShort s i.opcode hcut

/-- The machine reads an opcode byte and two more as the instruction of that row with the address they make. -/
theorem bytesRun_addr (mk : Addr → Instr) (op : Byte) (hmk : ∀ a, encode (mk a) = op :: addrBytes a) (hi lo : Byte) :
    bytesRun [op, hi, lo] (mk (BitVec.ofNat 16 (256 * hi.toNat + lo.toNat))) := by
  rw [ofNat_eq_addrOfBytes, ← addrBytes_addrOfBytes hi lo, ← hmk]
  exact bytesRun_encode _

/-- Settles O32: what the loads do is their definition; the bytes are the encodings, and the assembler builds the same
instructions. -/
theorem loadImmediateWritesItsRegister : Obligations.LoadImmediateWritesItsRegister :=
  ⟨fun _ _ => rfl, fun _ _ => rfl, fun _ _ => rfl,
    fun n => ⟨bytesRun_encode (.ldaImm n), bytesRun_encode (.ldbImm n), bytesRun_encode (.ldcImm n)⟩,
    fun n => ⟨congrArg (Option.map emit) (buildOne_fitImm .ldaImm n),
      congrArg (Option.map emit) (buildOne_fitImm .ldbImm n),
      congrArg (Option.map emit) (buildOne_fitImm .ldcImm n)⟩⟩

/-- A store inside the data store writes the byte at its address and, but for `pc`, nothing else. -/
theorem storeByte_inBounds (op : Opcode) (hop : op.length = 3) (addr : Addr) (v : Byte) (s : State) (hs : s.wf)
    (h : addr.toNat < 4096) :
    (storeByte op addr v s).dataByte addr.toNat = v ∧
      (∀ x, x ≠ addr.toNat → (storeByte op addr v s).dataByte x = s.dataByte x) ∧
      { storeByte op addr v s with data := s.data } = { s with pc := s.pc + 3 } := by
  rcases storeByte_spec op addr v s with ⟨-, hstore⟩ | ⟨hout, -⟩
  · rw [hstore, hop]
    exact ⟨Memory.read_write_same config.dataSize config.initData s.data addr.toNat v hs.2,
      fun x hx => Memory.read_write_other config.initData s.data addr.toNat x v hx, rfl⟩
  · omega

/-- The assembler form of an address row gives its opcode byte and the address, high byte first (R72). -/
theorem map_emit_buildOne_fitAddr (mk : Addr → Instr) (op : Byte) (hmk : ∀ a, emit (mk a) = op :: addrBytes a)
    (hi lo : Byte) :
    (buildOne fitAddr mk [256 * hi.toNat + lo.toNat]).map emit = some [op, hi, lo] := by
  rw [buildOne_fitAddr, Option.map_some, hmk, addrBytes_addrOfBytes]

/-- Settles O34: inside the data store by the write, past it by the fault, and the bytes by the encoding of an address
row. -/
theorem storeWritesOneDataByte : Obligations.StoreWritesOneDataByte :=
  ⟨fun addr s hs h =>
      ⟨⟨_, rfl, storeByte_inBounds .sta rfl addr s.a s hs h⟩,
        ⟨_, rfl, storeByte_inBounds .stb rfl addr s.b s hs h⟩,
        ⟨_, rfl, storeByte_inBounds .stc rfl addr s.c s hs h⟩⟩,
    fun addr s h =>
      ⟨exec_outOfBounds addr s h (.sta addr) (by simp), exec_outOfBounds addr s h (.stb addr) (by simp),
        exec_outOfBounds addr s h (.stc addr) (by simp)⟩,
    fun hi lo =>
      ⟨bytesRun_addr .sta 0x03 (fun _ => rfl) hi lo, bytesRun_addr .stb 0x06 (fun _ => rfl) hi lo,
        bytesRun_addr .stc 0x09 (fun _ => rfl) hi lo,
        map_emit_buildOne_fitAddr .sta 0x03 (fun _ => rfl) hi lo,
        map_emit_buildOne_fitAddr .stb 0x06 (fun _ => rfl) hi lo,
        map_emit_buildOne_fitAddr .stc 0x09 (fun _ => rfl) hi lo⟩⟩

end Sys2Proof.Machine
end

section
/-! The jumps (spec/44_jumps.md): the whole next state of a jump on either side of its condition (R180 to R185), and the
bytes of its assembler form as the machine runs them. -/

namespace Sys2Proof.Machine

/-- Taken or not, a jump writes nothing but `pc` (R180). -/
theorem jumpIf_keeps_rest (op : Opcode) (taken : Bool) (target : Addr) (s : State) :
    jumpIf op taken target s = { s with pc := (jumpIf op taken target s).pc } := by
  rcases jumpIf_spec op taken target s with ⟨-, h⟩ | ⟨-, h⟩
  · rw [h]; rfl
  · rw [h]; rfl

/-- The whole next state of a three-byte jump taken on `cond`. -/
theorem jumpIf_eq (op : Opcode) (hop : op.length = 3) (cond : Bool) (target : Addr) (s : State) :
    jumpIf op cond target s = { s with pc := if cond then target else s.pc + 3 } := by
  rw [jumpIf_keeps_rest, jumpIf_pc op hop]

/-- The whole next state of a three-byte jump taken on the absence of `cond`. -/
theorem jumpIf_not_eq (op : Opcode) (hop : op.length = 3) (cond : Bool) (target : Addr) (s : State) :
    jumpIf op (!cond) target s = { s with pc := if cond then s.pc + 3 else target } := by
  rw [jumpIf_keeps_rest, jumpIf_not_pc op hop]

/-- Settles O46: the next state by the jump's condition, the bytes by the encoding of an address row, and the assembler
forms by the row each condition selects. -/
theorem jumpsLoadPcWhereTheirConditionHolds : Obligations.JumpsLoadPcWhereTheirConditionHolds :=
  ⟨fun t s => congrArg Host.Outcome.next (jumpIf_eq .jmp rfl true t s),
    fun t s => congrArg Host.Outcome.next (jumpIf_eq .jmpZ rfl s.flags.zero t s),
    fun t s => congrArg Host.Outcome.next (jumpIf_not_eq .jmpNz rfl s.flags.zero t s),
    fun t s => congrArg Host.Outcome.next (jumpIf_eq .jmpC rfl s.flags.carry t s),
    fun t s => congrArg Host.Outcome.next (jumpIf_not_eq .jmpNc rfl s.flags.carry t s),
    fun hi lo =>
      ⟨bytesRun_addr .jmp 0x13 (fun _ => rfl) hi lo, bytesRun_addr .jmpZ 0x14 (fun _ => rfl) hi lo,
        bytesRun_addr .jmpNz 0x15 (fun _ => rfl) hi lo, bytesRun_addr .jmpC 0x16 (fun _ => rfl) hi lo,
        bytesRun_addr .jmpNc 0x17 (fun _ => rfl) hi lo,
        map_emit_buildOne_fitAddr .jmp 0x13 (fun _ => rfl) hi lo,
        map_emit_buildOne_fitAddr .jmpZ 0x14 (fun _ => rfl) hi lo,
        map_emit_buildOne_fitAddr .jmpNz 0x15 (fun _ => rfl) hi lo,
        map_emit_buildOne_fitAddr .jmpC 0x16 (fun _ => rfl) hi lo,
        map_emit_buildOne_fitAddr .jmpNc 0x17 (fun _ => rfl) hi lo⟩⟩

end Sys2Proof.Machine
end

section
/-! The stops and the faults of the program store (spec/60_exceptions.md): NOP (R222), the end of the store at the head of
a cycle and the ways `pc` gets there (R223), and an instruction the end of the store cuts short (R225). -/

namespace Sys2Proof

/-- A row with one operand byte takes the first byte there is. -/
theorem takeByte_eq_some (mk : Byte → Instr) (bs : List Byte) (i : Instr) (rest : List Byte) :
    takeByte mk bs = some (i, rest) ↔ ∃ b, bs = b :: rest ∧ mk b = i := by
  rcases bs with _ | ⟨b, tail⟩ <;> simp [takeByte, and_comm]

/-- A row with two operand bytes takes the first two. -/
theorem takeTwoBytes_eq_some (mk : Byte → Byte → Instr) (bs : List Byte) (i : Instr) (rest : List Byte) :
    takeTwoBytes mk bs = some (i, rest) ↔ ∃ b c, bs = b :: c :: rest ∧ mk b c = i := by
  rcases bs with _ | ⟨b, _ | ⟨c, tail⟩⟩ <;> simp [takeTwoBytes, and_comm]

/-- A row with an address takes the two bytes of that address. -/
theorem takeAddr_eq_some (mk : Addr → Instr) (bs : List Byte) (i : Instr) (rest : List Byte) :
    takeAddr mk bs = some (i, rest) ↔ ∃ hi lo, bs = hi :: lo :: rest ∧ mk (addrOfBytes hi lo) = i := by
  rcases bs with _ | ⟨hi, _ | ⟨lo, tail⟩⟩ <;> simp [takeAddr, and_comm]

/-- The bytes a row takes are the operand bytes of the instruction it makes of them: the converse of
`Opcode.takeOperands_operandBytes`. -/
theorem Opcode.eq_operandBytes_append_of_takeOperands (op : Opcode) (bs : List Byte) (i : Instr) (rest : List Byte)
    (h : op.takeOperands bs = some (i, rest)) : i.opcode = op ∧ bs = i.operandBytes ++ rest := by
  cases op
  case nop | fill =>
    cases h
    exact ⟨rfl, rfl⟩
  case sta | stb | stc | ldaAddr | jmp | jmpZ | jmpNz | jmpC | jmpNc =>
    obtain ⟨hi, lo, rfl, rfl⟩ := (takeAddr_eq_some ..).1 h
    exact ⟨rfl, congrArg (· ++ rest) (addrBytes_addrOfBytes hi lo).symm⟩
  case addRr | subRr | addRi | subRi | andRr | orRr | xorRr =>
    obtain ⟨b, c, rfl, rfl⟩ := (takeTwoBytes_eq_some ..).1 h
    exact ⟨rfl, rfl⟩
  all_goals
    obtain ⟨b, rfl, rfl⟩ := (takeByte_eq_some ..).1 h
    exact ⟨rfl, rfl⟩

/-- Bytes that decode to an instruction begin with its encoding: the converse of `decode_encode`. -/
theorem eq_encode_append_of_decode (bs : List Byte) (i : Instr) (rest : List Byte) (h : decode bs = .instr i rest) :
    bs = encode i ++ rest := by
  cases bs with
  | nil => cases h
  | cons b tail =>
    cases hop : Opcode.ofByte b with
    | none => simp [decode, hop] at h
    | some op =>
      obtain rfl := Opcode.toByte_of_ofByte hop
      rw [decode_cons] at h
      cases htake : op.takeOperands tail with
      | none => simp [htake] at h
      | some taken =>
        rw [htake] at h
        cases h
        obtain ⟨rfl, rfl⟩ := op.eq_operandBytes_append_of_takeOperands tail _ _ htake
        rfl

end Sys2Proof

namespace Sys2Proof.Machine

/-- Settles O30: the effect is NOP's definition, and 00 is its encoding. -/
theorem nopStopsTheRun : Obligations.NopStopsTheRun :=
  ⟨fun _ => rfl, bytesRun_encode .nop⟩

/-- Settles O17: the faulted state of `step_of_cutShort`, written out. -/
theorem missingOperandFaults : Obligations.MissingOperandFaults :=
  step_of_cutShort

/-- A running core with `pc` at or past the end of the program store has no opcode byte to fetch (R223). -/
theorem step_of_pc_end (s : State) (hs : s.status = .running) (h : 4096 ≤ s.pc.toNat) :
    step s = .next (s.halt .haltEnd) := by
  rcases step_running s hs with ⟨-, hst⟩ | ⟨b, hd, -⟩ | ⟨b, hd, -⟩ | ⟨i, rest, hd, -⟩
  case inl => exact hst
  all_goals rw [s.window_end h] at hd; cases hd

/-- Moving `pc` on inside the program store, or up to its end, does not wrap. -/
theorem State.advance_pc_toNat (s : State) (n : Nat) (h : s.pc.toNat + n ≤ 4096) :
    (s.advance n).pc.toNat = s.pc.toNat + n := by
  rw [State.advance_pc, BitVec.toNat_add, BitVec.toNat_ofNat]
  omega

/-- The fetch reaches no byte past the end of the program store (R47). -/
theorem State.pc_add_window_length_le (s : State) (h : s.pc.toNat ≤ 4096) : s.pc.toNat + s.window.length ≤ 4096 := by
  rw [State.window_length]
  omega

/-- A fetched instruction lies inside the program store. -/
theorem pc_add_length_le_of_decode (s : State) (i : Instr) (rest : List Byte) (h : decode s.window = .instr i rest) :
    s.pc.toNat + i.length ≤ 4096 := by
  have hwindow : s.window.length = i.length + rest.length := by
    rw [eq_encode_append_of_decode _ i rest h, List.length_append, encode_length, Instr.length]
  have hlength : 1 ≤ i.length := i.opcode.length_bounds.1
  rw [State.window_length] at hwindow
  omega

/-- However an instruction ends, `pc` is past it or at the target it carries (R24, R226). -/
theorem exec_pc_past_or_target (i : Instr) (s t : State) (h : exec i s = .next t) :
    t.pc = (s.advance i.length).pc ∨ jumpTarget i = some t.pc := by
  rcases exec_cases i s t h with ⟨-, -, hpc⟩ | ⟨rfl, rfl⟩ | ⟨b, -, rfl, -⟩ | ⟨addr, -, rfl, hlen, -⟩
  case inl => exact hpc
  case inr.inr.inr => rw [hlen]; exact .inl rfl
  all_goals exact .inl rfl

/-- A step from inside the program store or its end leads no further than its end, but for a jump (R223). -/
theorem step_pc_le_or_target (s t : State) (hs : s.status = .running) (hpc : s.pc.toNat ≤ 4096) (h : step s = .next t) :
    t.pc.toNat ≤ 4096 ∨ ∃ i rest, decode s.window = .instr i rest ∧ jumpTarget i = some t.pc := by
  have hfetched := s.pc_add_window_length_le hpc
  rcases step_running s hs with ⟨-, hst⟩ | ⟨op, hd, hst⟩ | ⟨op, -, hst⟩ | ⟨i, rest, hd, hst⟩ <;> rw [hst] at h
  case inl => cases h; exact .inl hpc
  case inr.inl =>
    cases h
    have hwindow : 1 ≤ s.window.length :=
      List.length_pos_iff.2 fun hnil => by rw [hnil] at hd; cases hd
    exact .inl ((s.advance_pc_toNat 1 (by omega)).trans_le (by omega))
  case inr.inr.inl => cases h; exact .inl ((s.advance_pc_toNat _ hfetched).trans_le hfetched)
  case inr.inr.inr =>
    have hend := pc_add_length_le_of_decode s i rest hd
    rcases exec_pc_past_or_target i s t h with hpast | htarget
    · exact .inl (by rw [hpast, s.advance_pc_toNat _ hend]; exact hend)
    · exact .inr ⟨i, rest, hd, htarget⟩

/-- A step that leaves a running core running has executed an instruction. -/
theorem exec_of_step_running (s t : State) (hs : s.status = .running) (h : step s = .next t)
    (ht : t.status = .running) : ∃ i rest, decode s.window = .instr i rest ∧ exec i s = .next t := by
  rcases step_running s hs with ⟨-, hst⟩ | ⟨op, -, hst⟩ | ⟨op, -, hst⟩ | ⟨i, rest, hd, hst⟩ <;> rw [hst] at h
  case inr.inr.inr => exact ⟨i, rest, hd, h⟩
  all_goals cases h; cases ht

/-- Settles O15: there is nothing to fetch at the end; only a target leads past it; and what is executed without going to
its target leaves `pc` behind its own last byte. -/
theorem endOfProgramStoreStopsTheRun : Obligations.EndOfProgramStoreStopsTheRun := by
  refine ⟨step_of_pc_end, fun s t hs hpc h hover => ?_, fun s t hs _ h ht hend => ?_⟩
  · exact (step_pc_le_or_target s t hs hpc h).resolve_left (Nat.not_le.2 hover)
  · obtain ⟨i, rest, hd, hexec⟩ := exec_of_step_running s t hs h ht
    refine ⟨i, rest, hd, (exec_pc_past_or_target i s t hexec).imp_left fun hpast => ?_⟩
    rw [← s.advance_pc_toNat _ (pc_add_length_le_of_decode s i rest hd), ← hpast, hend]

end Sys2Proof.Machine
end

section
/-! Reset with an image (spec/70_reset_and_hazards.md): the image's bytes read back from the loaded program store
(R263), the state an accepted image gives (R260, R264), and the first fetch (R261). -/

namespace Sys2Proof.Machine

/-- Writing bytes at rising addresses leaves every address below the first as it was, whatever the form of the list. -/
theorem Memory.read_writeAll_below (fill : Byte) (vs : List Byte) (m : Memory) (a x : Nat) (h : x < a) :
    Memory.read fill (Memory.writeAll fill m a vs) x = Memory.read fill m x := by
  induction vs generalizing m a with
  | nil => rfl
  | cons v vs ih =>
    calc Memory.read fill (Memory.writeAll fill (Memory.write fill m a v) (a + 1) vs) x
      _ = Memory.read fill (Memory.write fill m a v) x := ih _ _ (by omega)
      _ = Memory.read fill m x := Memory.read_write_other fill m a x v (by omega)

/-- Bytes written at rising addresses inside a canonical store read back, each at its own. -/
theorem Memory.read_writeAll (size : Nat) (fill : Byte) (vs : List Byte) (m : Memory) (a : Nat)
    (hm : Memory.wf size fill m) (ha : a + vs.length ≤ size) (k : Nat) (hk : k < vs.length) :
    Memory.read fill (Memory.writeAll fill m a vs) (a + k) = vs[k] := by
  induction vs generalizing m a k with
  | nil => cases hk
  | cons v vs ih =>
    rw [List.length_cons] at ha hk
    cases k with
    | zero =>
      exact (Memory.read_writeAll_below fill vs _ _ a (by omega)).trans (Memory.read_write_same size fill m a v hm)
    | succ j =>
      rw [← Nat.succ_add_eq_add_succ]
      exact ih _ (a + 1) (Memory.wf_write size fill m a v hm (by omega)) (by omega) j (by omega)

/-- The image stands in the program store from address 0 up (R263). -/
theorem read_progOfImage (image : List Byte) (h : image.length ≤ 4096) (k : Nat) (hk : k < image.length) :
    Memory.read config.progFill (progOfImage image) k = image[k] := by
  have hread := Memory.read_writeAll config.progSize config.progFill image [] 0 (Memory.wf_nil _ _)
    (by rw [Nat.zero_add]; exact h) k hk
  rwa [Nat.zero_add] at hread

/-- Reset accepts the images that fit the program store, and gives the reset state with the image in it (R260, R264). -/
theorem resetWith_eq_next (image : List Byte) (s : State) :
    resetWith image = .next s ↔ image.length ≤ 4096 ∧ { State.reset with prog := progOfImage image } = s := by
  by_cases hlen : image.length ≤ 4096
  · simp [resetWith, Nat.not_lt.2 hlen, hlen]
  · simp [resetWith, Nat.not_le.1 hlen, hlen]

/-- A core reset with an accepted image is Running with that image next. -/
theorem about_of_resetWith (image : List Byte) (s : State) (h : resetWith image = .next s) : s.about image := by
  obtain ⟨hlen, rfl⟩ := (resetWith_eq_next image s).1 h
  refine ⟨rfl, (Nat.zero_add _).trans_le hlen, fun k hk => ?_⟩
  exact (congrArg _ (Nat.zero_add k)).trans (read_progOfImage image hlen k hk)

/-- A core about to run some bytes is about to run the first of them. -/
theorem State.about_of_append (s : State) (bytes rest : List Byte) (h : s.about (bytes ++ rest)) : s.about bytes := by
  obtain ⟨hs, hend, hbytes⟩ := h
  rw [List.length_append] at hend
  refine ⟨hs, by omega, fun k hk => ?_⟩
  rw [hbytes k (by rw [List.length_append]; omega), List.getElem_append_left hk]

/-- Settles O53: the image is next after reset, so its first byte heads the window and an encoding it begins with is the
one that runs. -/
theorem executionBeginsWithTheFirstImageByte : Obligations.ExecutionBeginsWithTheFirstImageByte := by
  intro image b s hb h
  have habout : s.about image := about_of_resetWith image s h
  have hpc : s.pc = 0x0000 := by
    obtain ⟨-, rfl⟩ := (resetWith_eq_next image s).1 h
    rfl
  refine ⟨hpc, ?_, habout.1, fun i rest himage => ?_⟩
  · obtain ⟨tail, rfl⟩ := List.head?_eq_some_iff.1 hb
    obtain ⟨-, hcode⟩ := s.about_of_append [b] tail habout
    obtain ⟨rest, hwindow⟩ := s.window_of_codeAt [b] (by simp) hcode
    rw [hwindow]
    rfl
  · rw [himage] at habout
    exact (bytesRun_encode i).1 s (s.about_of_append (encode i) rest habout)

end Sys2Proof.Machine
end

section
/-! The decoder and the encoder on every input (spec/30_encoding.md): the converse of encoding, the decoder's other
answers (R67, R68), the operand values the encoder takes (R74), and the rows a source line can select (R79, R82). -/

namespace Sys2Proof

/-- Settles O2: `eq_encode_append_of_decode` one way and `decode_encode` the other. -/
theorem decodeAnswersExactlyTheEncodedInstruction : Obligations.DecodeAnswersExactlyTheEncodedInstruction :=
  fun bytes rest i => ⟨eq_encode_append_of_decode bytes i rest, fun h => h ▸ decode_encode i rest⟩

/-- Settles O4: each vector is its instruction's encoding. -/
theorem testVectorWordsDecode : Obligations.TestVectorWordsDecode :=
  ⟨decode_encode .nop [], decode_encode (.ldaImm 0x2A) [], decode_encode (.ldaReg 2) [], decode_encode (.sta 0x0123) [],
    decode_encode (.ldbImm 0x00) [], decode_encode (.ldbReg 0) [], decode_encode (.stb 0x0FFF) [],
    decode_encode (.ldcImm 0xFF) [], decode_encode (.ldcReg 1) [], decode_encode (.stc 0x0001) [],
    decode_encode (.ldaAddr 0x0020) [], decode_encode (.addRr 0 1) [], decode_encode (.subRr 2 0) [],
    decode_encode (.addRi 1 0x10) [], decode_encode (.subRi 0 0x01) [], decode_encode (.andRr 2 1) [],
    decode_encode (.orRr 0 1) [], decode_encode (.xorRr 1 1) [], decode_encode (.notR 1) [],
    decode_encode (.jmp 0x0100) [], decode_encode (.jmpZ 0x0040) [], decode_encode (.jmpNz 0x0002) [],
    decode_encode (.jmpC 0x0015) [], decode_encode (.jmpNc 0x001A) [], decode_encode (.cp 0x05) [],
    decode_encode .fill []⟩

/-- The bytes that select no row are those between CP's and FILL's: the converse of `Opcode.ofByte_eq_none`. -/
theorem Opcode.range_of_ofByte_eq_none (b : Byte) (h : Opcode.ofByte b = none) : 0x19 ≤ b.toNat ∧ b.toNat ≤ 0xFE := by
  revert b
  decide

/-- A row finds its operands where as many bytes follow the opcode as its format has. -/
theorem Opcode.exists_takeOperands (op : Opcode) (bs : List Byte) (h : op.format.operandBytes ≤ bs.length) :
    ∃ i rest, op.takeOperands bs = some (i, rest) := by
  cases op
  case nop | fill => exact ⟨_, bs, rfl⟩
  case ldaImm | ldaReg | ldbImm | ldbReg | ldcImm | ldcReg | notR | cp =>
    match bs, h with
    | _ :: rest, _ => exact ⟨_, rest, rfl⟩
  all_goals
    match bs, h with
    | _ :: _ :: rest, _ => exact ⟨_, rest, rfl⟩
    | [_], h => exact absurd h (Nat.not_succ_le_self 1)

/-- A row misses an operand exactly where fewer bytes follow than its format has. -/
theorem Opcode.takeOperands_eq_none_iff (op : Opcode) (bs : List Byte) :
    op.takeOperands bs = none ↔ bs.length + 1 < op.length := by
  have hlength : op.length = 1 + op.format.operandBytes := rfl
  refine ⟨fun h => ?_, fun h => op.takeOperands_eq_none bs (by omega)⟩
  by_contra hlen
  obtain ⟨i, rest, htake⟩ := op.exists_takeOperands bs (by omega)
  rw [h] at htake
  cases htake

/-- Everything the decoder can answer: the bytes it was given, and why. -/
theorem decode_cases (bs : List Byte) :
    (bs = [] ∧ decode bs = .noOpcode) ∨
      (∃ b tail, bs = b :: tail ∧ 0x19 ≤ b.toNat ∧ b.toNat ≤ 0xFE ∧ decode bs = .illegal b) ∨
      (∃ (op : Opcode) (tail : List Byte), bs = op.toByte :: tail ∧ tail.length + 1 < op.length ∧
        decode bs = .missingOperand op.toByte) ∨
      ∃ i rest, bs = encode i ++ rest ∧ decode bs = .instr i rest := by
  cases bs with
  | nil => exact .inl ⟨rfl, rfl⟩
  | cons b tail =>
    cases hop : Opcode.ofByte b with
    | none =>
      obtain ⟨hlo, hhi⟩ := Opcode.range_of_ofByte_eq_none b hop
      exact .inr (.inl ⟨b, tail, rfl, hlo, hhi, decode_illegal hlo hhi tail⟩)
    | some op =>
      obtain rfl := Opcode.toByte_of_ofByte hop
      cases htake : op.takeOperands tail with
      | none =>
        have hshort := (op.takeOperands_eq_none_iff tail).1 htake
        exact .inr (.inr (.inl ⟨op, tail, rfl, hshort, decode_missingOperand op tail hshort⟩))
      | some taken =>
        have hdecode : decode (op.toByte :: tail) = .instr taken.1 taken.2 := by rw [decode_cons, htake]
        exact .inr (.inr (.inr ⟨_, _, eq_encode_append_of_decode _ _ _ hdecode, hdecode⟩))

/-- The decoder calls illegal only a byte that selects no row (R68). -/
theorem range_of_decode_illegal (bs : List Byte) (b : Byte) (h : decode bs = .illegal b) :
    0x19 ≤ b.toNat ∧ b.toNat ≤ 0xFE := by
  rcases decode_cases bs with ⟨-, hd⟩ | ⟨b', tail, -, hlo, hhi, hd⟩ | ⟨op, tail, -, -, hd⟩ | ⟨i, rest, -, hd⟩ <;>
    rw [h] at hd <;> cases hd
  exact ⟨hlo, hhi⟩

/-- After a row's opcode byte an operand is missing exactly where fewer bytes follow than the row needs. -/
theorem decode_eq_missingOperand_iff (op : Opcode) (bs : List Byte) :
    decode (op.toByte :: bs) = .missingOperand op.toByte ↔ bs.length + 1 < op.length := by
  rw [← op.takeOperands_eq_none_iff, decode_cons]
  cases op.takeOperands bs <;> simp

/-- Settles O3: the illegal bytes both ways, and the bytes a row needs. -/
theorem decoderRejectsByName : Obligations.DecoderRejectsByName :=
  ⟨fun b bs => ⟨range_of_decode_illegal (b :: bs) b, fun ⟨hlo, hhi⟩ => decode_illegal hlo hhi bs⟩, rfl,
    decode_eq_missingOperand_iff⟩

end Sys2Proof

namespace Sys2Proof.Machine

/-- What a row builds an instruction from is legal: the converse of `build_of_legalOperands` (R74, D17). -/
theorem legalOperands_of_build (op : Opcode) (values : List Nat) (i : Instr) (h : op.build values = some i) :
    legalOperands op values := by
  cases op
  case nop | fill => exact (Option.ite_none_right_eq_some.1 h).1
  case ldaImm | ldbImm | ldcImm | cp =>
    obtain ⟨n, x, rfl, hfit, -⟩ := (buildOne_eq_some ..).1 h
    exact ⟨n, rfl, ((fitImm_eq_some ..).1 hfit).1⟩
  case ldaReg | ldbReg | ldcReg | notR =>
    obtain ⟨n, x, rfl, hfit, -⟩ := (buildOne_eq_some ..).1 h
    exact ⟨n, rfl, ((fitReg_eq_some ..).1 hfit).1⟩
  case sta | stb | stc | ldaAddr | jmp | jmpZ | jmpNz | jmpC | jmpNc =>
    obtain ⟨n, x, rfl, hfit, -⟩ := (buildOne_eq_some ..).1 h
    exact ⟨n, rfl, ((fitAddr_eq_some ..).1 hfit).1⟩
  case addRr | subRr | andRr | orRr | xorRr =>
    obtain ⟨d, n, x, y, rfl, hfitD, hfitN, -⟩ := (buildTwo_eq_some ..).1 h
    exact ⟨d, n, rfl, ((fitReg_eq_some ..).1 hfitD).1, ((fitReg_eq_some ..).1 hfitN).1⟩
  case addRi | subRi =>
    obtain ⟨d, n, x, y, rfl, hfitD, hfitN, -⟩ := (buildTwo_eq_some ..).1 h
    exact ⟨d, n, rfl, ((fitReg_eq_some ..).1 hfitD).1, ((fitImm_eq_some ..).1 hfitN).1⟩

/-- Settles O5: the encoder answers where the row builds an instruction, and it builds one from legal values alone. -/
theorem encoderAcceptsExactlyLegalOperands : Obligations.EncoderAcceptsExactlyLegalOperands := by
  refine fun op values => ⟨fun ⟨bytes, h⟩ => ?_, fun h => ?_⟩
  · obtain ⟨i, hbuild, -⟩ := Option.map_eq_some_iff.1 h
    exact legalOperands_of_build op values i hbuild
  · obtain ⟨i, hbuild, -⟩ := build_of_legalOperands op values h
    exact ⟨emit i, congrArg (Option.map emit) hbuild⟩

end Sys2Proof.Machine

namespace Sys2Proof

/-- A source line for each row but FILL (R79). -/
theorem exists_selectShape (op : Opcode) (h : op ≠ .fill) :
    ∃ m operands values, selectShape m operands = some (op, values) := by
  cases op
  case nop => exact ⟨.NOP, [], _, rfl⟩
  case ldaImm => exact ⟨.LDA, [.imm 0], _, rfl⟩
  case ldaReg => exact ⟨.LDA, [.reg .a], _, rfl⟩
  case ldaAddr => exact ⟨.LDA, [.addr 0], _, rfl⟩
  case ldbImm => exact ⟨.LDB, [.imm 0], _, rfl⟩
  case ldbReg => exact ⟨.LDB, [.reg .a], _, rfl⟩
  case ldcImm => exact ⟨.LDC, [.imm 0], _, rfl⟩
  case ldcReg => exact ⟨.LDC, [.reg .a], _, rfl⟩
  case sta => exact ⟨.STA, [.addr 0], _, rfl⟩
  case stb => exact ⟨.STB, [.addr 0], _, rfl⟩
  case stc => exact ⟨.STC, [.addr 0], _, rfl⟩
  case addRr => exact ⟨.ADD, [.reg .a, .reg .b], _, rfl⟩
  case addRi => exact ⟨.ADD, [.reg .a, .imm 0], _, rfl⟩
  case subRr => exact ⟨.SUB, [.reg .a, .reg .b], _, rfl⟩
  case subRi => exact ⟨.SUB, [.reg .a, .imm 0], _, rfl⟩
  case andRr => exact ⟨.AND, [.reg .a, .reg .b], _, rfl⟩
  case orRr => exact ⟨.OR, [.reg .a, .reg .b], _, rfl⟩
  case xorRr => exact ⟨.XOR, [.reg .a, .reg .b], _, rfl⟩
  case notR => exact ⟨.NOT, [.reg .a], _, rfl⟩
  case jmp => exact ⟨.JMP, [.label 0], _, rfl⟩
  case jmpZ => exact ⟨.JMP, [.cond .z, .label 0], _, rfl⟩
  case jmpNz => exact ⟨.JMP, [.cond .nz, .label 0], _, rfl⟩
  case jmpC => exact ⟨.JMP, [.cond .c, .label 0], _, rfl⟩
  case jmpNc => exact ⟨.JMP, [.cond .nc, .label 0], _, rfl⟩
  case cp => exact ⟨.CP, [.imm 0], _, rfl⟩
  case fill => exact absurd rfl h

/-- No source line selects FILL: it has no mnemonic. -/
theorem selectShape_ne_fill (m : Mnemonic) (operands : List SourceOperand) (op : Opcode) (values : List Nat)
    (h : selectShape m operands = some (op, values)) : op ≠ .fill := by
  unfold selectShape at h
  split at h
  case h_21 k t =>
    obtain ⟨rfl, -⟩ := Prod.mk.inj (Option.some.inj h)
    cases k <;> exact Opcode.noConfusion
  all_goals cases h
  all_goals exact Opcode.noConfusion

/-- Settles O7: a line for each row but FILL, none for FILL, and no address form of LDB and LDC in the table of shapes. -/
theorem shapeSelectionReachesEveryRowButFill : Obligations.ShapeSelectionReachesEveryRowButFill :=
  ⟨fun op => ⟨exists_selectShape op, fun ⟨m, operands, values, h⟩ => selectShape_ne_fill m operands op values h⟩,
    fun _ => ⟨rfl, rfl⟩⟩

end Sys2Proof
end

section
/-! Labels (spec/30_encoding.md R81): a line has the bytes its size counts, so the label table counts the bytes emitted. -/

namespace Sys2Proof

/-- What the encoder answers is as long as the row, and for CP one filler longer (R73). -/
theorem encodeRow_length (op : Opcode) (values : List Nat) (bytes : List Byte) (h : encodeRow op values = some bytes) :
    bytes.length = op.length + if op = .cp then 1 else 0 := by
  obtain ⟨i, hbuild, rfl⟩ := Option.map_eq_some_iff.1 h
  have hrow : i.opcode = op := by
    obtain ⟨j, hj, hop, -⟩ :=
      Machine.build_of_legalOperands op values (Machine.legalOperands_of_build op values i hbuild)
    obtain rfl : i = j := Option.some.inj (hbuild.symm.trans hj)
    exact hop
  rw [emit_eq_encode_append, List.length_append, encode_length, hrow]
  split <;> rfl

/-- A jump's line selects a jump's row, with the target as its one operand (R82). -/
theorem selectShape_jumpOperands (cond : Option Cond) (a : Nat) :
    ∃ op : Opcode, selectShape .JMP (jumpOperands cond a) = some (op, [a]) ∧ op.length = Opcode.jmp.length ∧ op ≠ .cp := by
  cases cond with
  | none => exact ⟨.jmp, rfl, rfl, Opcode.noConfusion⟩
  | some k => exact ⟨k.jump, rfl, by cases k <;> rfl, by cases k <;> exact Opcode.noConfusion⟩

/-- The bytes of a line are as many as its size, whatever its label resolves to. -/
theorem SourceLine.length_of_bytes (resolve : Token → Option Nat) (line : SourceLine) (bytes : List Byte)
    (h : line.bytes resolve = some bytes) : bytes.length = line.size := by
  cases line with
  | empty => cases h; rfl
  | label name => cases h; rfl
  | plain m operands =>
    have hline : encodeLine m operands = some bytes := h
    simp [SourceLine.size, hline]
  | jump cond target =>
    obtain ⟨a, -, hline⟩ := Option.bind_eq_some_iff.1 h
    obtain ⟨op, hshape, hlength, hcp⟩ := selectShape_jumpOperands cond a
    have hrow : encodeRow op [a] = some bytes := by simpa [encodeLine, hshape] using hline
    rw [encodeRow_length op [a] bytes hrow, if_neg hcp, hlength]
    rfl

/-- The bytes of a list of lines are as many as their sizes together. -/
theorem length_of_linesBytes (resolve : Token → Option Nat) (lines : List SourceLine) (bytes : List Byte)
    (h : linesBytes resolve lines = some bytes) : bytes.length = (lines.map SourceLine.size).sum := by
  induction lines generalizing bytes with
  | nil => cases h; rfl
  | cons line rest ih =>
    obtain ⟨x, y, hline, hrest, rfl⟩ := (linesBytes_cons resolve line rest bytes).1 h
    rw [List.length_append, SourceLine.length_of_bytes resolve line x hline, ih y hrest, List.map_cons, List.sum_cons]

/-- The bytes of lines followed by lines are the bytes of the first and then those of the second. -/
theorem linesBytes_append (resolve : Token → Option Nat) (before after : List SourceLine) (bytes : List Byte)
    (h : linesBytes resolve (before ++ after) = some bytes) :
    ∃ front back, bytes = front ++ back ∧ linesBytes resolve before = some front ∧
      linesBytes resolve after = some back := by
  induction before generalizing bytes with
  | nil => exact ⟨[], bytes, rfl, rfl, h⟩
  | cons line rest ih =>
    obtain ⟨x, y, hline, hrest, rfl⟩ := (linesBytes_cons resolve line (rest ++ after) bytes).1 h
    obtain ⟨front, back, rfl, hfront, hback⟩ := ih y hrest
    exact ⟨x ++ front, back, (List.append_assoc ..).symm,
      (linesBytes_cons ..).2 ⟨x, front, hline, hfront, rfl⟩, hback⟩

/-- Lines move the labels after them by their sizes. -/
theorem labelTable_append (start : Nat) (before after : List SourceLine) :
    labelTable start (before ++ after) =
      labelTable start before ++ labelTable (start + (before.map SourceLine.size).sum) after := by
  induction before generalizing start with
  | nil => rfl
  | cons line rest ih =>
    cases line <;> simp [labelTable, ih, Nat.add_assoc, SourceLine.size]

/-- In a table that lists no name twice, a listed name resolves to its own value. -/
theorem resolveIn_append_cons (front back : List (Token × Nat)) (name : Token) (value : Nat)
    (h : ((front ++ (name, value) :: back).map Prod.fst).Nodup) :
    resolveIn (front ++ (name, value) :: back) name = some value := by
  rw [List.map_append, List.map_cons] at h
  have hfresh : name ∉ front.map Prod.fst := fun hmem => List.disjoint_of_nodup_append h hmem List.mem_cons_self
  have hfind : (front ++ (name, value) :: back).find? (fun entry => entry.1 == name) = some (name, value) := by
    refine List.find?_eq_some_iff_append.2 ⟨beq_self_eq_true name, front, back, rfl, fun entry hentry => ?_⟩
    have hne : entry.1 ≠ name := fun heq => hfresh (heq ▸ List.mem_map_of_mem hentry)
    simpa using hne
  rw [resolveIn, hfind]
  rfl

/-- An image is that of a source with no label defined twice, its labels resolved. -/
theorem assemble_eq_some (lines : List SourceLine) (bytes : List Byte) :
    assemble lines = some bytes ↔ ((labelTable 0 lines).map Prod.fst).Nodup ∧
      linesBytes (resolveIn (labelTable 0 lines)) lines = some bytes :=
  Option.ite_none_right_eq_some

/-- Settles O8: the table lists the label with the sizes of the lines before it, which are the bytes those lines give. -/
theorem assembledLabelIsTheAddressThatFollowsIt : Obligations.AssembledLabelIsTheAddressThatFollowsIt := by
  intro before after name bytes h
  obtain ⟨hnodup, hbytes⟩ := (assemble_eq_some _ bytes).1 h
  obtain ⟨front, back, rfl, hfront, hlabel⟩ := linesBytes_append _ before _ bytes hbytes
  obtain ⟨x, y, hx, hback, rfl⟩ := (linesBytes_cons _ _ after back).1 hlabel
  cases hx
  refine ⟨front, y, rfl, ?_, hfront, hback⟩
  rw [labelTable_append, Nat.zero_add, ← length_of_linesBytes _ before front hfront] at hnodup ⊢
  exact resolveIn_append_cons _ _ name front.length hnodup

end Sys2Proof
end

section
/-! The cycle (spec/40_cycle_and_nop.md): every step has a next state, a stopped core stays as it is (R105), the operand
fetches (R102 to R104), and the step as the fetch protocol (R101). -/

namespace Sys2Proof.Machine

/-- Settles O9: `step_of_decode_instr`. -/
theorem stepRunsDecodedInstruction : Obligations.StepRunsDecodedInstruction :=
  step_of_decode_instr

/-- Settles O10: the machine reads an encoding as the instruction. -/
theorem stepRunsEncodedInstructionAtPc : Obligations.StepRunsEncodedInstructionAtPc :=
  fun s i => (bytesRun_encode i).1 s

/-- Every instruction has a meaning: no arm faults or refuses. -/
theorem exec_total (i : Instr) (s : State) : ∃ t, exec i s = .next t := by
  cases i <;> exact ⟨_, rfl⟩

/-- Settles O14: a stop and a fault of the machine are next states, and so is what an instruction gives. -/
theorem stepAlwaysAnswersANextState : Obligations.StepAlwaysAnswersANextState := by
  intro s
  by_cases hs : s.status = .running
  · rcases step_running s hs with ⟨-, h⟩ | ⟨op, -, h⟩ | ⟨op, -, h⟩ | ⟨i, rest, -, h⟩
    case inr.inr.inr => rw [h]; exact exec_total i s
    all_goals exact ⟨_, h⟩
  · exact ⟨s, step_stopped s hs⟩

/-- Settles O13: each step of the run answers the state it began in. -/
theorem stoppedCoreNeverChanges : Obligations.StoppedCoreNeverChanges := by
  intro n s hs
  induction n with
  | zero => rfl
  | succ k ih => exact (run_succ_eq_next core k s s).2 ⟨s, step_stopped s hs, ih⟩

/-- `Fetch8` inside the program store. -/
theorem State.fetch8_of_lt (s : State) (h : s.pc.toNat < 4096) :
    s.fetch8 = .ok (s.progByte s.pc.toNat, s.advance 1) :=
  if_neg (Nat.not_le.2 h)

/-- `Fetch8` past it. -/
theorem State.fetch8_of_le (s : State) (h : 4096 ≤ s.pc.toNat) : s.fetch8 = .error s :=
  if_pos h

/-- `Fetch16` is two `Fetch8` with the bytes joined, high byte first (R103). -/
theorem fetchAddr_eq (mk : Addr → Instr) (s : State) :
    fetchAddr mk s = fetchTwoBytes (fun hi lo => mk (addrOfBytes hi lo)) s := by
  unfold fetchAddr State.fetch16 fetchTwoBytes fetchByte
  cases s.fetch8 with
  | error e => rfl
  | ok first =>
    obtain ⟨hi, s1⟩ := first
    dsimp only
    cases s1.fetch8 <;> rfl

/-- An address is two operand bytes joined, high byte first (R43). -/
theorem takeAddr_eq (mk : Addr → Instr) (bs : List Byte) :
    takeAddr mk bs = takeTwoBytes (fun hi lo => mk (addrOfBytes hi lo)) bs := by
  rcases bs with _ | ⟨hi, _ | ⟨lo, rest⟩⟩ <;> rfl

/-- One operand byte: it is consumed, or it is due past the end of the program store. -/
theorem fetchByte_cases (mk : Byte → Instr) (s : State) :
    (s.pc.toNat < 4096 ∧ fetchByte mk s = .ok (mk (s.progByte s.pc.toNat), s.advance 1)) ∨
      (4096 ≤ s.pc.toNat ∧ fetchByte mk s = .error s) := by
  rcases Nat.lt_or_ge s.pc.toNat 4096 with h | h
  · exact .inl ⟨h, by rw [fetchByte, s.fetch8_of_lt h]⟩
  · exact .inr ⟨h, by rw [fetchByte, s.fetch8_of_le h]⟩

/-- Two operand bytes: both are consumed, or the first or the second is due past the end of the program store. -/
theorem fetchTwoBytes_cases (mk : Byte → Byte → Instr) (s : State) :
    (s.pc.toNat < 4096 ∧ (s.advance 1).pc.toNat < 4096 ∧ fetchTwoBytes mk s =
        .ok (mk (s.progByte s.pc.toNat) (s.progByte (s.advance 1).pc.toNat), s.advance 2)) ∨
      (4096 ≤ s.pc.toNat ∧ fetchTwoBytes mk s = .error s) ∨
      (s.pc.toNat < 4096 ∧ 4096 ≤ (s.advance 1).pc.toNat ∧ fetchTwoBytes mk s = .error (s.advance 1)) := by
  rcases Nat.lt_or_ge s.pc.toNat 4096 with h | h
  · have hfirst : fetchTwoBytes mk s = fetchByte (mk (s.progByte s.pc.toNat)) (s.advance 1) := by
      rw [fetchTwoBytes, s.fetch8_of_lt h]
    rcases fetchByte_cases (mk (s.progByte s.pc.toNat)) (s.advance 1) with ⟨h1, hlast⟩ | ⟨h1, hlast⟩
    · rw [State.advance_advance] at hlast
      exact .inl ⟨h, h1, hfirst.trans hlast⟩
    · exact .inr (.inr ⟨h, h1, hfirst.trans hlast⟩)
  · exact .inr (.inl ⟨h, by rw [fetchTwoBytes, s.fetch8_of_le h]⟩)

/-- What fetching `n` operand bytes from `s` into an instruction of the row `op` can answer: all of them consumed, or
the fetch stopped at or past the end of the program store with fewer consumed. -/
def FetchesOperands (op : Opcode) (n : Nat) (s : State) (fetched : Except State (Instr × State)) : Prop :=
  (∃ i, fetched = .ok (i, s.advance n) ∧ i.opcode = op) ∨
    ∃ k, k < n ∧ fetched = .error (s.advance k) ∧ 4096 ≤ (s.advance k).pc.toNat

/-- Consuming no byte changes nothing. -/
theorem State.advance_zero (s : State) : s.advance 0 = s := by
  simp [State.advance]

theorem fetchesOperands_byte (op : Opcode) (mk : Byte → Instr) (hmk : ∀ b, (mk b).opcode = op) (s : State) :
    FetchesOperands op 1 s (fetchByte mk s) := by
  rcases fetchByte_cases mk s with ⟨-, hf⟩ | ⟨h, hf⟩
  · exact .inl ⟨_, hf, hmk _⟩
  · exact .inr ⟨0, Nat.one_pos, by rw [s.advance_zero]; exact hf, by rw [s.advance_zero]; exact h⟩

theorem fetchesOperands_twoBytes (op : Opcode) (mk : Byte → Byte → Instr) (hmk : ∀ b c, (mk b c).opcode = op)
    (s : State) : FetchesOperands op 2 s (fetchTwoBytes mk s) := by
  rcases fetchTwoBytes_cases mk s with ⟨-, -, hf⟩ | ⟨h, hf⟩ | ⟨-, h, hf⟩
  · exact .inl ⟨_, hf, hmk _ _⟩
  · exact .inr ⟨0, Nat.two_pos, by rw [s.advance_zero]; exact hf, by rw [s.advance_zero]; exact h⟩
  · exact .inr ⟨1, Nat.one_lt_two, hf, h⟩

/-- A row's fetches are those of its format (R61). -/
theorem fetchesOperands_row (op : Opcode) (s : State) :
    FetchesOperands op op.format.operandBytes s (fetchOperands op s) := by
  cases op
  case nop | fill => exact .inl ⟨_, by rw [Opcode.format, Format.operandBytes, s.advance_zero]; rfl, rfl⟩
  case ldaImm | ldaReg | ldbImm | ldbReg | ldcImm | ldcReg | notR | cp =>
    exact fetchesOperands_byte _ _ (fun _ => by rfl) s
  case sta | stb | stc | ldaAddr | jmp | jmpZ | jmpNz | jmpC | jmpNc =>
    rw [fetchOperands, fetchAddr_eq]
    exact fetchesOperands_twoBytes _ _ (fun _ _ => by rfl) s
  all_goals exact fetchesOperands_twoBytes _ _ (fun _ _ => by rfl) s

/-- Settles O12: the fetches of the row's format, its length being one more than its operand bytes. -/
theorem operandFetchConsumesTheRowsOperandBytes : Obligations.OperandFetchConsumesTheRowsOperandBytes := by
  intro op s
  have hlength : op.length = 1 + op.format.operandBytes := rfl
  rcases fetchesOperands_row op s with ⟨i, hf, hrow⟩ | ⟨k, hk, hf, hend⟩
  · exact .inl ⟨i, by rw [hlength, Nat.add_sub_cancel_left]; exact hf, hrow⟩
  · exact .inr ⟨k, by omega, hf, hend⟩

/-- A fetch from `s` agrees with taking operands from the bytes `bs`: it answers the instruction they give; or they are
too few, and it stops with all of them consumed. -/
def FetchAgrees (s : State) (bs : List Byte) (fetched : Except State (Instr × State))
    (taken : Option (Instr × List Byte)) : Prop :=
  (∃ i t rest, fetched = .ok (i, t) ∧ taken = some (i, rest)) ∨ (fetched = .error (s.advance bs.length) ∧ taken = none)

theorem fetchAgrees_byte (mk : Byte → Instr) (s : State) (n : Nat) :
    FetchAgrees s (s.bytesFrom (n + 1) s.pc.toNat) (fetchByte mk s) (takeByte mk (s.bytesFrom (n + 1) s.pc.toNat)) := by
  rcases fetchByte_cases mk s with ⟨h, hf⟩ | ⟨h, hf⟩
  · rw [s.bytesFrom_step n _ h]
    exact .inl ⟨_, _, _, hf, rfl⟩
  · rw [s.bytesFrom_end _ _ h]
    exact .inr ⟨by rw [List.length_nil, s.advance_zero]; exact hf, rfl⟩

theorem fetchAgrees_twoBytes (mk : Byte → Byte → Instr) (s : State) :
    FetchAgrees s (s.bytesFrom 2 s.pc.toNat) (fetchTwoBytes mk s) (takeTwoBytes mk (s.bytesFrom 2 s.pc.toNat)) := by
  have hnext (h : s.pc.toNat < 4096) : (s.advance 1).pc.toNat = s.pc.toNat + 1 := s.advance_pc_toNat 1 (by omega)
  rcases fetchTwoBytes_cases mk s with ⟨h, h1, hf⟩ | ⟨h, hf⟩ | ⟨h, h1, hf⟩
  · rw [hnext h] at h1 hf
    rw [s.bytesFrom_step 1 _ h, s.bytesFrom_step 0 _ h1]
    exact .inl ⟨_, _, _, hf, rfl⟩
  · rw [s.bytesFrom_end _ _ h]
    exact .inr ⟨by rw [List.length_nil, s.advance_zero]; exact hf, rfl⟩
  · rw [hnext h] at h1
    rw [s.bytesFrom_step 1 _ h, s.bytesFrom_end _ _ h1]
    exact .inr ⟨hf, rfl⟩

/-- A row's fetches agree with the decoder on the two bytes the fetch can reach after the opcode. -/
theorem fetchAgrees_row (op : Opcode) (s : State) :
    FetchAgrees s (s.bytesFrom 2 s.pc.toNat) (fetchOperands op s) (op.takeOperands (s.bytesFrom 2 s.pc.toNat)) := by
  cases op
  case nop | fill => exact .inl ⟨_, _, _, rfl, rfl⟩
  case ldaImm | ldaReg | ldbImm | ldbReg | ldcImm | ldcReg | notR | cp => exact fetchAgrees_byte _ s 1
  case sta | stb | stc | ldaAddr | jmp | jmpZ | jmpNz | jmpC | jmpNc =>
    rw [fetchOperands, Opcode.takeOperands, fetchAddr_eq, takeAddr_eq]
    exact fetchAgrees_twoBytes _ s
  all_goals exact fetchAgrees_twoBytes _ s

/-- The window of a core inside the program store: its opcode byte, then what the fetch reaches once it is consumed. -/
theorem State.window_eq_cons (s : State) (h : s.pc.toNat < 4096) :
    s.window = s.progByte s.pc.toNat :: (s.advance 1).bytesFrom 2 (s.advance 1).pc.toNat := by
  rw [s.window_opcode h, s.advance_pc_toNat 1 (by omega)]
  exact congrArg _ (State.bytesFrom_congr rfl 2 _)

/-- The step of a running core whose opcode byte selects a row, by the fetches of that row. -/
theorem step_of_fetchOperands (s : State) (row : Opcode) (hs : s.status = .running) (h : s.pc.toNat < 4096)
    (hop : s.progByte s.pc.toNat = row.toByte) :
    (∃ i t, fetchOperands row (s.advance 1) = .ok (i, t) ∧ step s = exec i s) ∨
      ∃ t, fetchOperands row (s.advance 1) = .error t ∧ step s = .next (t.raise (.progOutOfBounds t.pc row.toByte)) := by
  have hwindow := s.window_eq_cons h
  have hdecode := congrArg decode hwindow
  rw [hop, decode_cons] at hdecode
  rcases fetchAgrees_row row (s.advance 1) with ⟨i, t, rest, hf, htake⟩ | ⟨hf, htake⟩ <;> rw [htake] at hdecode
  · exact .inl ⟨i, t, hf, step_of_decode_instr s i rest hs hdecode⟩
  · refine .inr ⟨_, hf, ?_⟩
    rw [State.advance_advance, Nat.add_comm, ← List.length_cons, ← hwindow]
    exact step_of_decode_missingOperand s row.toByte hs hdecode

/-- Settles O11: stopped, at the end of the store, at an illegal byte, and at a row's byte by the row's fetches. -/
theorem stepIsTheFetchProtocol : Obligations.StepIsTheFetchProtocol := by
  intro s
  rw [protocolCycle]
  by_cases hs : s.status = .running
  · rw [if_neg (not_not_intro hs), config_progSize]
    rcases Nat.lt_or_ge s.pc.toNat 4096 with hpc | hpc
    · rw [if_neg (Nat.not_le.2 hpc)]
      cases hop : Opcode.ofByte (s.progByte s.pc.toNat) with
      | none =>
        have hdecode : decode s.window = .illegal (s.progByte s.pc.toNat) := by rw [s.window_opcode hpc, decode, hop]
        simp only [hop, step_of_decode_illegal s _ hs hdecode]
      | some row =>
        have hrow := (Opcode.toByte_of_ofByte hop).symm
        rcases step_of_fetchOperands s row hs hpc hrow with ⟨i, t, hf, hstep⟩ | ⟨t, hf, hstep⟩
        · simp only [hop, hf, hstep]
        · simp only [hf, hstep, hrow, Opcode.ofByte_toByte]
    · rw [if_pos hpc]
      exact step_of_pc_end s hs hpc
  · rw [if_pos hs]
    exact step_stopped s hs

end Sys2Proof.Machine
end

section
/-! What every step keeps: canonical stores (spec/20_memory.md section 4), and, from the ways a step can end the run, what
a terminal status says (R221, R226), who writes `fault_info` (R29), and that an ending step is precise (R226). -/

namespace Sys2Proof.Machine

/-- Settles O18: an empty store is canonical. -/
theorem resetStoresAreCanonical : Obligations.ResetStoresAreCanonical :=
  ⟨Memory.wf_nil _ _, Memory.wf_nil _ _⟩

/-- Settles O21: Running says nothing more. -/
theorem resetStatusIsExplained : Obligations.ResetStatusIsExplained :=
  ⟨trivial, rfl⟩

/-- An instruction keeps both stores canonical: its one write is inside the data store. -/
theorem exec_keeps_wf (i : Instr) (s t : State) (hs : s.wf) (h : exec i s = .next t) : t.wf := by
  obtain ⟨hprog, hdata⟩ := exec_stores i s t h
  refine ⟨by rw [hprog]; exact hs.1, ?_⟩
  rcases hdata with hdata | ⟨a, v, ha, hdata⟩ <;> rw [hdata]
  · exact hs.2
  · exact Memory.wf_write _ _ _ _ _ hs.2 ha

/-- The decoder finds no opcode only past the end of the program store. -/
theorem pc_end_of_decode_noOpcode (s : State) (h : decode s.window = .noOpcode) : 4096 ≤ s.pc.toNat := by
  rcases decode_cases s.window with ⟨hnil, -⟩ | ⟨b, tail, -, -, -, hd⟩ | ⟨op, tail, -, -, hd⟩ | ⟨i, rest, -, hd⟩
  case inl =>
    have hlength := s.window_length
    rw [hnil, List.length_nil] at hlength
    omega
  all_goals rw [h] at hd; cases hd

/-- The decoder misses an operand only where the end of the program store cuts the window short. -/
theorem window_toEnd_of_decode_missingOperand (s : State) (op : Byte) (h : decode s.window = .missingOperand op) :
    s.pc + BitVec.ofNat 16 s.window.length = 0x1000 := by
  rcases decode_cases s.window with ⟨-, hd⟩ | ⟨b, tail, -, -, -, hd⟩ | ⟨row, tail, hwindow, hshort, -⟩ | ⟨i, rest, -, hd⟩
  case inr.inr.inl =>
    have hmax : row.length ≤ 3 := row.length_bounds.2
    have hlength : s.window.length = tail.length + 1 := by rw [hwindow, List.length_cons]
    have hreach := s.window_length
    rw [show s.window.length = 4096 - s.pc.toNat by omega]
    exact s.pc_add_toEnd (by omega)
  all_goals rw [h] at hd; cases hd

/-- The ways a step of a running core can go: the four that execute no instruction or end the run in one, each with its
whole next state, and an instruction that completes with `status` and `fault_info` as they were. -/
theorem step_cases (s t : State) (hs : s.status = .running) (h : step s = .next t) :
    (4096 ≤ s.pc.toNat ∧ t = s.halt .haltEnd) ∨
      (∃ op : Byte, 0x19 ≤ op.toNat ∧ op.toNat ≤ 0xFE ∧ t = (s.advance 1).raise (.illegalOpcode s.pc op)) ∨
      (∃ op, t = s.missingOperand op) ∨
      t = (s.advance 1).halt .haltNop ∨
      (∃ i b, firstBadIndex i = some b ∧ (i.length = 2 ∨ i.length = 3) ∧
        t = (s.advance i.length).raise (.badRegister s.pc b)) ∨
      (∃ (a : Addr) (op : Byte), 4096 ≤ a.toNat ∧ op ∈ ([0x03, 0x06, 0x09, 0x0A] : List Byte) ∧
        t = (s.advance 3).raise (.dataOutOfBounds a op)) ∨
      (t.status = .running ∧ t.faultInfo = s.faultInfo ∧ ∃ i, exec i s = .next t) := by
  rcases step_running s hs with ⟨hd, hst⟩ | ⟨op, hd, hst⟩ | ⟨op, hd, hst⟩ | ⟨i, rest, -, hst⟩ <;> rw [hst] at h
  case inl => cases h; exact .inl ⟨pc_end_of_decode_noOpcode s hd, rfl⟩
  case inr.inl =>
    cases h
    obtain ⟨hlo, hhi⟩ := range_of_decode_illegal s.window op hd
    exact .inr (.inl ⟨op, hlo, hhi, rfl⟩)
  case inr.inr.inl =>
    cases h
    refine .inr (.inr (.inl ⟨op, ?_⟩))
    rw [State.advance, window_toEnd_of_decode_missingOperand s op hd]
    rfl
  case inr.inr.inr =>
    rcases exec_cases i s t h with ⟨hstatus, hinfo, -⟩ | ⟨-, ht⟩ | ⟨b, hbad, ht, hlen⟩ | ⟨a, ha, ht, -, hop, -⟩
    · exact .inr (.inr (.inr (.inr (.inr (.inr ⟨hstatus.trans hs, hinfo, i, h⟩)))))
    · exact .inr (.inr (.inr (.inl ht)))
    · exact .inr (.inr (.inr (.inr (.inl ⟨i, b, hbad, hlen, ht⟩))))
    · exact .inr (.inr (.inr (.inr (.inr (.inl ⟨a, i.opcode.toByte, ha, hop, ht⟩)))))

/-- Settles O19: what a step does short of an instruction touches no store, and an instruction keeps both canonical. -/
theorem stepKeepsStoresCanonical : Obligations.StepKeepsStoresCanonical := by
  intro s t hwf h
  by_cases hs : s.status = .running
  · rcases step_running s hs with ⟨-, hst⟩ | ⟨op, -, hst⟩ | ⟨op, -, hst⟩ | ⟨i, rest, -, hst⟩ <;> rw [hst] at h
    case inr.inr.inr => exact exec_keeps_wf i s t hwf h
    all_goals cases h; exact hwf
  · rw [step_stopped s hs] at h
    cases h; exact hwf

/-- The byte a bad register index is recorded with names no register (R64). -/
theorem three_le_of_firstBadIndex (i : Instr) (b : Byte) (h : firstBadIndex i = some b) : 3 ≤ b.toNat := by
  cases i
  case ldaReg r | ldbReg r | ldcReg r | notR r | addRi r _ | subRi r _ =>
    obtain ⟨hr, hb⟩ := Option.ite_none_right_eq_some.1 h
    exact Option.some.inj hb ▸ hr
  case addRr d r | subRr d r | andRr d r | orRr d r | xorRr d r =>
    rw [firstBadIndex] at h
    split_ifs at h with hd hr <;> cases h
    · exact hd
    · exact hr
  all_goals cases h

/-- Settles O22: a stopped core stays as it is, and each way a step can end the run leaves what its status says. -/
theorem stepKeepsTerminalStatusExplained : Obligations.StepKeepsTerminalStatusExplained := by
  intro s t hexplained h
  by_cases hs : s.status = .running
  · rcases step_cases s t hs h with ⟨hpc, rfl⟩ | ⟨op, hlo, hhi, rfl⟩ | ⟨op, rfl⟩ | rfl | ⟨i, b, hbad, hlen, rfl⟩ |
      ⟨a, op, ha, hop, rfl⟩ | ⟨hrun, -⟩
    · exact hpc
    · exact ⟨hlo, hhi, rfl⟩
    · exact ⟨rfl, rfl⟩
    · trivial
    · exact ⟨three_le_of_firstBadIndex i b hbad, hlen.imp (fun h2 => by rw [h2]; rfl) fun h3 => by rw [h3]; rfl⟩
    · exact ⟨ha, hop⟩
    · rw [State.terminalExplained, hrun]
      trivial
  · rw [step_stopped s hs] at h
    cases h; exact hexplained

/-- Settles O23: a step of a stopped core writes nothing, and of a running one only the four faults write the pair. -/
theorem faultInfoIsWrittenOnlyByFaults : Obligations.FaultInfoIsWrittenOnlyByFaults := by
  intro s t h hcond
  by_cases hs : s.status = .running
  · have hnofault : t.status.isFault = false := hcond.resolve_right (not_not_intro hs)
    rcases step_cases s t hs h with ⟨-, rfl⟩ | ⟨op, -, -, rfl⟩ | ⟨op, rfl⟩ | rfl | ⟨i, b, -, -, rfl⟩ |
      ⟨a, op, -, -, rfl⟩ | ⟨-, hinfo, -⟩
    case inl | inr.inr.inr.inl => rfl
    case inr.inr.inr.inr.inr.inr => exact hinfo
    all_goals cases hnofault
  · rw [step_stopped s hs] at h
    cases h; rfl

/-- Settles O24: the ways a step can end the run, each with its whole next state. -/
theorem endingStepIsPrecise : Obligations.EndingStepIsPrecise := by
  intro s t hs h hend
  rcases step_cases s t hs h with ⟨-, rfl⟩ | ⟨op, -, -, rfl⟩ | ⟨op, rfl⟩ | rfl | ⟨i, b, -, hlen, rfl⟩ |
    ⟨a, op, -, -, rfl⟩ | ⟨hrun, -⟩
  case inr.inr.inr.inr.inr.inr => exact absurd hrun hend
  case inr.inr.inr.inr.inl =>
    exact ⟨by simp, rfl, rfl, rfl, hlen.imp (fun h2 => by rw [h2]; rfl) fun h3 => by rw [h3]; rfl⟩
  case inr.inr.inl => exact ⟨fun r => by cases r <;> rfl, rfl, rfl, rfl, rfl⟩
  all_goals exact ⟨by simp, rfl, rfl, rfl, rfl⟩

end Sys2Proof.Machine
end

section
/-! Register operands (spec/30_encoding.md R64): the forms where they name registers and where they do not (R228), the
loads from a register (spec/41_load_store.md R123 to R125), and the load from an address (R129). -/

namespace Sys2Proof.Machine

/-- A register operand that names a register. -/
theorem withReg_of_some {i : Byte} {r : Reg} (h : regOfIndex i = some r) (op : Opcode) (s : State)
    (act : Reg → State → State) : withReg op i s act = act r (s.advance op.length) := by
  rw [withReg, h]

/-- A register operand that names none. -/
theorem withReg_of_none {i : Byte} (h : regOfIndex i = none) (op : Opcode) (s : State) (act : Reg → State → State) :
    withReg op i s act = (s.advance op.length).raise (.badRegister s.pc i) := by
  rw [withReg, h]

/-- Two register operands that name registers. -/
theorem withRegs_of_some {d i : Byte} {r q : Reg} (hd : regOfIndex d = some r) (hi : regOfIndex i = some q)
    (op : Opcode) (s : State) (act : Reg → Reg → State → State) :
    withRegs op d i s act = act r q (s.advance op.length) := by
  rw [withRegs, withReg_of_some hd, hi]

/-- The first of two bad indices is the one recorded: destination before source (R228). -/
theorem withRegs_of_bad {d i b : Byte} (op : Opcode) (s : State) (act : Reg → Reg → State → State)
    (h : (if 3 ≤ d.toNat then some d else if 3 ≤ i.toNat then some i else none) = some b) :
    withRegs op d i s act = (s.advance op.length).raise (.badRegister s.pc b) := by
  split_ifs at h with hd hi <;> cases h
  · exact withReg_of_none ((regOfIndex_eq_none _).2 hd) op s _
  · obtain ⟨r, hr⟩ := Option.ne_none_iff_exists'.1 fun hnone => hd ((regOfIndex_eq_none _).1 hnone)
    rw [withRegs, withReg_of_some hr, (regOfIndex_eq_none _).2 hi]

/-- A bad index as the only one. -/
theorem withReg_of_bad {i b : Byte} (op : Opcode) (s : State) (act : Reg → State → State)
    (h : (if 3 ≤ i.toNat then some i else none) = some b) :
    withReg op i s act = (s.advance op.length).raise (.badRegister s.pc b) := by
  obtain ⟨hi, hb⟩ := Option.ite_none_right_eq_some.1 h
  cases hb
  exact withReg_of_none ((regOfIndex_eq_none _).2 hi) op s act

/-- An instruction with a bad index raises BadRegister for the first and does nothing else (R228). -/
theorem exec_of_firstBadIndex (i : Instr) (s : State) (b : Byte) (h : firstBadIndex i = some b) :
    exec i s = .next ((s.advance i.length).raise (.badRegister s.pc b)) := by
  cases i
  case ldaReg | ldbReg | ldcReg | notR | addRi | subRi => exact congrArg Host.Outcome.next (withReg_of_bad _ s _ h)
  case addRr | subRr | andRr | orRr | xorRr => exact congrArg Host.Outcome.next (withRegs_of_bad _ s _ h)
  all_goals cases h

/-- The encoder's check of an index is that it is not one of the bad ones. -/
theorem regIndexLegal_iff (i : Byte) : regIndexLegal i = true ↔ ¬ 3 ≤ i.toNat := by
  rw [regIndexLegal, decide_eq_true_iff, Nat.not_le]

/-- An instruction is well-formed where no index of it is bad. -/
theorem wellFormed_iff (i : Instr) : i.wellFormed = true ↔ firstBadIndex i = none := by
  cases i
  case ldaReg | ldbReg | ldcReg | notR | addRi | subRi => simp [Instr.wellFormed, firstBadIndex, regIndexLegal_iff]
  case addRr d r | subRr d r | andRr d r | orRr d r | xorRr d r =>
    by_cases hd : 3 ≤ d.toNat <;> simp [Instr.wellFormed, firstBadIndex, regIndexLegal_iff, hd]
  all_goals exact ⟨fun _ => rfl, fun _ => rfl⟩

/-- Settles O45: the fault by the operand forms, and the three readings of a bad index. -/
theorem badRegisterFaults : Obligations.BadRegisterFaults := by
  refine ⟨fun i s b h => ?_, regOfIndex_eq_none, wellFormed_iff⟩
  rw [encode_length]
  exact exec_of_firstBadIndex i s b h

/-- A load from a register that is named copies it and, but for `pc`, does nothing else. -/
theorem loadReg_of_some {i : Byte} {r : Reg} (h : regOfIndex i = some r) (op : Opcode) (dst : Reg) (s : State) :
    loadReg op dst i s = (s.advance op.length).set dst (s.get r) := by
  rw [loadReg, withReg_of_some h, State.advance_get]

/-- Settles O33: the copy into each of the three, and their encodings. -/
theorem loadRegisterCopiesTheSource : Obligations.LoadRegisterCopiesTheSource :=
  ⟨fun _ _ s h =>
      ⟨congrArg Host.Outcome.next (loadReg_of_some h .ldaReg .a s),
        congrArg Host.Outcome.next (loadReg_of_some h .ldbReg .b s),
        congrArg Host.Outcome.next (loadReg_of_some h .ldcReg .c s)⟩,
    fun i => ⟨bytesRun_encode (.ldaReg i), bytesRun_encode (.ldbReg i), bytesRun_encode (.ldcReg i)⟩⟩

/-- A load from inside the data store reads the byte there. -/
theorem withLoad_inBounds (op : Opcode) (addr : Addr) (s : State) (act : Byte → State → State)
    (h : addr.toNat < 4096) : withLoad op addr s act = act (s.dataByte addr.toNat) (s.advance op.length) := by
  rcases withLoad_spec op addr s act with ⟨-, hload⟩ | ⟨hout, -⟩
  · exact hload
  · omega

/-- LDA.addr inside the data store. -/
theorem exec_ldaAddr_inBounds (addr : Addr) (s : State) (h : addr.toNat < 4096) :
    exec (.ldaAddr addr) s = .next { s with a := s.dataByte addr.toNat, pc := s.pc + 3 } :=
  congrArg Host.Outcome.next (withLoad_inBounds .ldaAddr addr s _ h)

/-- Settles O35: the byte inside the data store, the fault past it, and the bytes by the encoding of an address row. -/
theorem loadFromAddressReadsOneDataByte : Obligations.LoadFromAddressReadsOneDataByte :=
  ⟨exec_ldaAddr_inBounds, fun addr s h => exec_outOfBounds addr s h (.ldaAddr addr) (by simp),
    bytesRun_addr .ldaAddr 0x0A fun _ => rfl⟩

end Sys2Proof.Machine
end

section
/-! ADD and SUB (spec/42_arithmetic.md): the result and the flags as numbers say them (R140, R141), the whole next state of
both forms, and the flags they share with a compare. -/

namespace Sys2Proof.Machine

/-- A sum of bytes is the byte of their sum as numbers (D4). -/
theorem arithResult_add (a b : Byte) : arithResult .add a b = BitVec.ofNat 8 (a.toNat + b.toNat) :=
  BitVec.ofInt_ofNat 8 (a.toNat + b.toNat)

/-- A difference of bytes is the byte of the difference kept above zero by one turn of 256 (D4). -/
theorem arithResult_sub (a b : Byte) : arithResult .sub a b = BitVec.ofNat 8 (a.toNat + 256 - b.toNat) := by
  have ha := a.isLt
  have hb := b.isLt
  apply BitVec.eq_of_toNat_eq
  simp only [arithResult, arithExact, trunc8, BitVec.toNat_ofInt, BitVec.toNat_ofNat]
  omega

/-- The flags of an addition (D3). -/
theorem arithFlags_add (a b : Byte) : arithFlags .add a b =
    ⟨decide ((a.toNat + b.toNat) % 256 = 0), decide (255 < a.toNat + b.toNat)⟩ := by
  have hzero : (arithResult .add a b = 0) ↔ (a.toNat + b.toNat) % 256 = 0 := by
    rw [arithResult_add, ← BitVec.toNat_inj, BitVec.toNat_ofNat]
    rfl
  exact congrArg (Flags.mk · _) (decide_eq_decide.2 hzero)

/-- The flags of a subtraction (D3): those of the compare of the same operands. -/
theorem arithFlags_sub (a b : Byte) : arithFlags .sub a b = compareFlags a b := by
  have ha := a.isLt
  have hb := b.isLt
  have hzero : (arithResult .sub a b = 0) ↔ a = b := by
    rw [arithResult_sub, ← BitVec.toNat_inj, ← BitVec.toNat_inj, BitVec.toNat_ofNat]
    show (a.toNat + 256 - b.toNat) % 256 = 0 ↔ _
    omega
  exact congrArg (Flags.mk · _) (decide_eq_decide.2 hzero)

/-- An arithmetic instruction on two named registers. -/
theorem withRegs_arith {d q : Byte} {i j : Reg} (hi : regOfIndex d = some i) (hj : regOfIndex q = some j) (row : Opcode)
    (op : ArithOp) (s : State) :
    withRegs row d q s (fun d r s1 => arith config.arithFlags op d (s1.get r) s1) =
      ((s.advance row.length).setFlags (arithFlags op (s.get i) (s.get j))).set i (arithResult op (s.get i) (s.get j)) := by
  rw [withRegs_of_some hi hj, arith_spec, State.advance_get, State.advance_get]
  rfl

/-- An arithmetic instruction on a named register and an immediate. -/
theorem withReg_arith {d : Byte} {i : Reg} (hi : regOfIndex d = some i) (row : Opcode) (op : ArithOp) (n : Byte)
    (s : State) :
    withReg row d s (fun d s1 => arith config.arithFlags op d n s1) =
      ((s.advance row.length).setFlags (arithFlags op (s.get i) n)).set i (arithResult op (s.get i) n) := by
  rw [withReg_of_some hi, arith_spec, State.advance_get]
  rfl

/-- Settles O38: the sum and its flags, from two registers and from a register and an immediate. -/
theorem addWritesSumAndBothFlags : Obligations.AddWritesSumAndBothFlags := by
  refine ⟨fun d q i j s hi hj => ?_, fun d n i s hi => ?_, fun d q =>
    ⟨bytesRun_encode (.addRr d q), bytesRun_encode (.addRi d q)⟩⟩
  · rw [← arithFlags_add, ← arithResult_add]
    exact congrArg Host.Outcome.next (withRegs_arith hi hj .addRr .add s)
  · rw [← arithFlags_add, ← arithResult_add]
    exact congrArg Host.Outcome.next (withReg_arith hi .addRi .add n s)

/-- Settles O39: the difference and its flags, from two registers and from a register and an immediate. -/
theorem subWritesDifferenceAndBothFlags : Obligations.SubWritesDifferenceAndBothFlags := by
  refine ⟨fun d q i j s hi hj => ?_, fun d n i s hi => ?_, fun d q =>
    ⟨bytesRun_encode (.subRr d q), bytesRun_encode (.subRi d q)⟩⟩
  · have hstate := withRegs_arith hi hj .subRr .sub s
    rw [arithFlags_sub, arithResult_sub] at hstate
    exact congrArg Host.Outcome.next hstate
  · have hstate := withReg_arith hi .subRi .sub n s
    rw [arithFlags_sub, arithResult_sub] at hstate
    exact congrArg Host.Outcome.next hstate

/-- Settles O40: the fifteen rows, each computed. -/
theorem arithmeticCornerTable : Obligations.ArithmeticCornerTable := by
  unfold Obligations.ArithmeticCornerTable
  decide

/-- A compare never sets both flags: equal bytes are not one less than the other (R201). -/
theorem compareFlags_not_both (a n : Byte) : ¬((compareFlags a n).zero = true ∧ (compareFlags a n).carry = true) := by
  rintro ⟨hzero, hcarry⟩
  have heq : a = n := eq_of_beq hzero
  have hless : a.toNat < n.toNat := of_decide_eq_true hcarry
  rw [heq] at hless
  exact Nat.lt_irrefl _ hless

/-- Settles O41: the flags of a subtraction are those of a compare; FF and 01 add to a zero byte and a carry. -/
theorem zeroAndCarryTogetherOnlyAfterAdd : Obligations.ZeroAndCarryTogetherOnlyAfterAdd := by
  refine ⟨fun a b => ?_, compareFlags_not_both, 0xFF, 0x01, by decide⟩
  rw [config_arithFlags, arithFlags_sub]
  exact compareFlags_not_both a b

/-- Settles O42: index byte 0 is A, and a subtraction and a compare have the same flags. -/
theorem subtractAndCompareLeaveTheSameFlags : Obligations.SubtractAndCompareLeaveTheSameFlags := by
  intro n s
  have hsub := withReg_arith (show regOfIndex 0 = some .a from rfl) .subRi .sub n s
  rw [arithFlags_sub] at hsub
  exact ⟨_, _, congrArg Host.Outcome.next hsub, rfl, rfl, rfl⟩

end Sys2Proof.Machine
end

section
/-! AND, OR, XOR and NOT (spec/43_bitwise.md R160 to R164). -/

namespace Sys2Proof.Machine

/-- A bitwise instruction on two named registers. -/
theorem bitwise_of_some {d q : Byte} {i j : Reg} (hi : regOfIndex d = some i) (hj : regOfIndex q = some j) (row : Opcode)
    (f : Byte → Byte → Byte) (s : State) :
    bitwise row f d q s = (s.advance row.length).set i (f (s.get i) (s.get j)) := by
  rw [bitwise, withRegs_of_some hi hj, State.advance_get, State.advance_get]

/-- Settles O43: the three rows of the shared operation, and their encodings. -/
theorem bitwiseWritesTargetOnly : Obligations.BitwiseWritesTargetOnly :=
  ⟨fun _ _ _ _ s hi hj =>
      ⟨congrArg Host.Outcome.next (bitwise_of_some hi hj .andRr _ s),
        congrArg Host.Outcome.next (bitwise_of_some hi hj .orRr _ s),
        congrArg Host.Outcome.next (bitwise_of_some hi hj .xorRr _ s)⟩,
    fun d q => ⟨bytesRun_encode (.andRr d q), bytesRun_encode (.orRr d q), bytesRun_encode (.xorRr d q)⟩⟩

/-- A byte inverted is 255 minus it. -/
theorem not_eq_ofNat (x : Byte) : ~~~x = BitVec.ofNat 8 (255 - x.toNat) := by
  apply BitVec.eq_of_toNat_eq
  rw [BitVec.toNat_not, BitVec.toNat_ofNat]
  omega

/-- Settles O44: the named register inverted. -/
theorem notComplementsItsRegister : Obligations.NotComplementsItsRegister := by
  refine ⟨fun d i s hi => ?_, fun d => bytesRun_encode (.notR d)⟩
  have hstate := withReg_of_some hi .notR s fun d s1 => s1.set d (~~~ s1.get d)
  rw [State.advance_get, not_eq_ofNat] at hstate
  exact congrArg Host.Outcome.next hstate

end Sys2Proof.Machine
end

section
/-! CP and FILL (spec/45_compare_and_filler.md): the flags of a compare (R200, R201), CP with its filler as two cycles (R203),
and a jump past the program store (spec/44_jumps.md R186), whose second cycle stops the run. -/

namespace Sys2Proof.Machine

/-- Settles O31: the effect is FILL's definition, and FF its encoding. -/
theorem fillOnlyAdvancesPc : Obligations.FillOnlyAdvancesPc :=
  ⟨fun _ => rfl, bytesRun_encode .fill⟩

/-- Settles O48: the flags of the compare are its definition, and 18 nn is its encoding. -/
theorem compareAssignsBothFlags : Obligations.CompareAssignsBothFlags :=
  ⟨fun _ _ => rfl, fun n => bytesRun_encode (.cp n)⟩

/-- The flags of a compare, by which of the three relations holds (R201). -/
theorem compareFlags_cases (a n : Byte) :
    (a.toNat = n.toNat → compareFlags a n = ⟨true, false⟩) ∧
      (n.toNat < a.toNat → compareFlags a n = ⟨false, false⟩) ∧
      (a.toNat < n.toNat → compareFlags a n = ⟨false, true⟩) := by
  have hflags : compareFlags a n = ⟨decide (a.toNat = n.toNat), decide (a.toNat < n.toNat)⟩ :=
    congrArg (Flags.mk · _) (decide_eq_decide.2 BitVec.toNat_inj.symm)
  rw [hflags]
  exact ⟨fun h => by simp [h], fun h => by simp [h.ne', h.le], fun h => by simp [h.ne, h]⟩

/-- Settles O49: the three relations, and never both flags. -/
theorem compareOutcomeIsOneOfThree : Obligations.CompareOutcomeIsOneOfThree := by
  intro n s
  obtain ⟨heq, hgreater, hless⟩ := compareFlags_cases s.a n
  refine ⟨_, rfl, heq, hgreater, hless, fun hboth => compareFlags_not_both s.a n ?_⟩
  have hflags : compareFlags s.a n = ⟨true, true⟩ := hboth
  rw [hflags]
  exact ⟨rfl, rfl⟩

/-- A core about to run some bytes is about to run the rest of them once it has passed the first. -/
theorem State.about_advance (s : State) (bytes rest : List Byte) (h : s.about (bytes ++ rest)) :
    (s.advance bytes.length).about rest := by
  obtain ⟨hs, hend, hbytes⟩ := h
  rw [config_progSize, List.length_append] at hend
  have hpc : (s.advance bytes.length).pc.toNat = s.pc.toNat + bytes.length := s.advance_pc_toNat _ (by omega)
  refine ⟨hs, by rw [hpc, config_progSize]; omega, fun k hk => ?_⟩
  rw [hpc, State.advance_progByte, Nat.add_assoc, hbytes _ (by rw [List.length_append]; omega)]
  simp

/-- Writing the flags does not change what a core is about to run. -/
theorem State.about_setFlags (s : State) (f : Flags) (bytes : List Byte) (h : s.about bytes) :
    (s.setFlags f).about bytes := h

/-- Settles O50: CP runs and leaves its filler next, which runs as FILL. -/
theorem compareWithFillerTakesTwoCycles : Obligations.CompareWithFillerTakesTwoCycles := by
  intro s n
  refine ⟨congrArg (Option.map emit) (buildOne_fitImm .cp n), fun habout => ?_⟩
  have hcp : step s = exec (.cp n) s := (bytesRun_encode (.cp n)).1 s (s.about_of_append [0x18, n] [0xFF] habout)
  have hnext : ((s.advance 2).setFlags (compareFlags s.a n)).about [0xFF] :=
    State.about_setFlags _ _ _ (s.about_advance [0x18, n] [0xFF] habout)
  have hpc : s.pc + 2 + 1 = s.pc + 3 := BitVec.add_assoc s.pc 2 1
  refine ⟨_, hcp, rfl, ((bytesRun_encode .fill).1 _ hnext).trans ?_⟩
  rw [← hpc]
  rfl

/-- Settles O47: the jump takes `pc` to its target, where the next cycle finds nothing to fetch. -/
theorem jumpPastTheStoreStopsOneCycleLater : Obligations.JumpPastTheStoreStopsOneCycleLater := by
  intro s hi lo habout hpast
  have hpc : 4096 ≤ (BitVec.ofNat 16 (256 * hi.toNat + lo.toNat)).toNat := by
    rw [ofNat_eq_addrOfBytes, addrOfBytes_toNat]
    exact hpast
  exact ⟨_, (bytesRun_addr .jmp 0x13 (fun _ => rfl) hi lo).1 s habout, rfl, step_of_pc_end _ habout.1 hpc⟩

end Sys2Proof.Machine
end

section
/-! What each instruction writes (the "writes" columns of spec/10_state.md R22, R27 and spec/20_memory.md R41), said once
over all instructions, and from it what stays: registers, flags and data bytes. -/

namespace Sys2Proof.Machine

/-- The states `i` can leave behind from `s`, by what was written besides `pc`; where it was a register, the flags or a
data byte, `i` has it in its "writes" column. -/
inductive Writes (i : Instr) (s : State) : State → Prop where
  | fault (e : FaultEvent) : Writes i s ((s.advance i.length).raise e)
  | halt (st : Status) : Writes i s ((s.advance i.length).halt st)
  | nothing : Writes i s (s.advance i.length)
  | target (a : Addr) : Writes i s (s.jumpTo a)
  | reg {r : Reg} (hr : r ∈ regsWritten i) (v : Byte) : Writes i s ((s.advance i.length).set r v)
  | flags (hf : writesFlags i = true) (f : Flags) : Writes i s ((s.advance i.length).setFlags f)
  | regAndFlags {r : Reg} (hr : r ∈ regsWritten i) (hf : writesFlags i = true) (v : Byte) (f : Flags) :
      Writes i s (((s.advance i.length).setFlags f).set r v)
  | data {a : Addr} {r : Reg} (hs : storeOf i = some (a, r)) (m : Memory) :
      Writes i s { s.advance i.length with data := m }

/-- An instruction with one register operand writes what it does once the register is known. -/
theorem writes_withReg {i : Instr} (d : Byte) (s : State) (act : Reg → State → State)
    (hact : ∀ r, regOfIndex d = some r → Writes i s (act r (s.advance i.length))) :
    Writes i s (withReg i.opcode d s act) := by
  rcases withReg_spec i.opcode d s act with ⟨r, hr, h⟩ | ⟨-, h⟩ <;> rw [h]
  · exact hact r hr
  · exact .fault _

/-- An instruction with two register operands writes what it does once both are known. -/
theorem writes_withRegs {i : Instr} (d q : Byte) (s : State) (act : Reg → Reg → State → State)
    (hact : ∀ r p, regOfIndex d = some r → Writes i s (act r p (s.advance i.length))) :
    Writes i s (withRegs i.opcode d q s act) := by
  rcases withRegs_spec i.opcode d q s act with ⟨r, p, hr, -, h⟩ | ⟨-, h⟩ | ⟨r, -, -, h⟩ <;> rw [h]
  · exact hact r p hr
  · exact .fault _
  · exact .fault _

/-- A store writes the data byte it names or faults. -/
theorem writes_storeByte {i : Instr} {a : Addr} {r : Reg} (hs : storeOf i = some (a, r)) (s : State) :
    Writes i s (storeByte i.opcode a (s.get r) s) := by
  rcases storeByte_spec i.opcode a (s.get r) s with ⟨-, h⟩ | ⟨-, h⟩ <;> rw [h]
  · exact .data hs _
  · exact .fault _

/-- A jump goes to its target or past itself. -/
theorem writes_jumpIf (i : Instr) (taken : Bool) (a : Addr) (s : State) : Writes i s (jumpIf i.opcode taken a s) := by
  rcases jumpIf_spec i.opcode taken a s with ⟨-, h⟩ | ⟨-, h⟩ <;> rw [h]
  · exact .target a
  · exact .nothing

/-- No instruction writes outside its columns. -/
theorem writes_of_exec (i : Instr) (s t : State) (h : exec i s = .next t) : Writes i s t := by
  cases i
  case nop => cases h; exact .halt _
  case fill => cases h; exact .nothing
  case ldaImm | ldbImm | ldcImm => cases h; exact .reg List.mem_cons_self _
  case cp => cases h; exact .flags rfl _
  case ldaReg | ldbReg | ldcReg =>
    cases h
    exact writes_withReg _ s _ fun _ _ => .reg List.mem_cons_self _
  case notR =>
    cases h
    exact writes_withReg _ s _ fun _ hr => .reg (Option.mem_toList.2 hr) _
  case addRi | subRi =>
    cases h
    exact writes_withReg _ s _ fun _ hr => by rw [arith_spec]; exact .regAndFlags (Option.mem_toList.2 hr) rfl _ _
  case addRr | subRr =>
    cases h
    exact writes_withRegs _ _ s _ fun _ _ hr => by rw [arith_spec]; exact .regAndFlags (Option.mem_toList.2 hr) rfl _ _
  case andRr | orRr | xorRr =>
    cases h
    exact writes_withRegs _ _ s _ fun _ _ hr => .reg (Option.mem_toList.2 hr) _
  case sta | stb | stc =>
    cases h
    exact writes_storeByte rfl s
  case ldaAddr a =>
    cases h
    rcases withLoad_spec .ldaAddr a s fun v s1 => s1.set .a v with ⟨-, h⟩ | ⟨-, h⟩ <;> rw [h]
    · exact .reg List.mem_cons_self _
    · exact .fault _
  all_goals
    cases h
    exact writes_jumpIf _ _ _ s

/-- A register outside the "writes" column keeps its value (R22). -/
theorem exec_get_of_not_mem_regsWritten (i : Instr) (s t : State) (r : Reg) (h : exec i s = .next t)
    (hr : r ∉ regsWritten i) : t.get r = s.get r := by
  have hother {q : Reg} (hq : q ∈ regsWritten i) : r ≠ q := fun heq => hr (heq ▸ hq)
  cases writes_of_exec i s t h with
  | reg hq v => rw [State.get_set, if_neg (hother hq), State.advance_get]
  | regAndFlags hq _ v f => rw [State.get_set, if_neg (hother hq), State.setFlags_get, State.advance_get]
  | data => cases r <;> rfl
  | _ => simp

/-- Where flags are not in the "writes" column they keep their values (R27). -/
theorem exec_flags_of_not_writesFlags (i : Instr) (s t : State) (h : exec i s = .next t) (hi : writesFlags i = false) :
    t.flags = s.flags := by
  cases writes_of_exec i s t h with
  | flags hf | regAndFlags _ hf => rw [hi] at hf; cases hf
  | data => rfl
  | _ => simp

/-- An instruction that is no store leaves the data store as it is (R41). -/
theorem exec_data_of_storeOf_none (i : Instr) (s t : State) (h : exec i s = .next t) (hi : storeOf i = none) :
    t.data = s.data := by
  cases writes_of_exec i s t h with
  | data hs => rw [hi] at hs; cases hs
  | _ => simp

/-- A store is the shared store operation on the address and the register it names (R126 to R128). -/
theorem exec_of_storeOf (i : Instr) (s : State) (addr : Addr) (r : Reg) (hi : storeOf i = some (addr, r)) :
    exec i s = .next (storeByte i.opcode addr (s.get r) s) := by
  cases i
  case sta | stb | stc => cases hi; rfl
  all_goals cases hi

/-- Each data byte after an instruction: the register stored where it is the store's address, else what it was. -/
theorem exec_dataByte (i : Instr) (s t : State) (hs : s.wf) (h : exec i s = .next t) (a : Nat) (ha : a < 4096) :
    t.dataByte a = match storeOf i with
      | some (addr, r) => if addr.toNat = a then s.get r else s.dataByte a
      | none => s.dataByte a := by
  split
  case h_1 addr r hi =>
    rw [exec_of_storeOf i s addr r hi] at h
    cases h
    rcases storeByte_spec i.opcode addr (s.get r) s with ⟨-, hstore⟩ | ⟨hout, hfault⟩
    · rw [hstore]
      split_ifs with heq
      · rw [← heq]
        exact Memory.read_write_same config.dataSize config.initData s.data addr.toNat (s.get r) hs.2
      · exact Memory.read_write_other config.initData s.data addr.toNat a (s.get r) (Ne.symm heq)
    · rw [hfault, if_neg (by omega)]
      rfl
  case h_2 hi => exact congrArg (Memory.read config.initData · a) (exec_data_of_storeOf_none i s t h hi)

end Sys2Proof.Machine
end

section
/-! What the outcome of an instruction depends on (the "reads" columns of spec/10_state.md R22, R27 and spec/20_memory.md
R41): two states that agree there are led to outcomes that agree. -/

namespace Sys2Proof.Machine

/-- Two states related before one register operand are related after it, where faulting keeps the relation and so does
what is done with the register. -/
theorem withReg_rel {P : State → State → Prop} {op : Opcode} {i : Byte} {s s' : State} {act act' : Reg → State → State}
    (hpc : s'.pc = s.pc) (hfault : ∀ e, P ((s.advance op.length).raise e) ((s'.advance op.length).raise e))
    (hact : ∀ r, regOfIndex i = some r → P (act r (s.advance op.length)) (act' r (s'.advance op.length))) :
    P (withReg op i s act) (withReg op i s' act') := by
  cases hr : regOfIndex i with
  | none => rw [withReg_of_none hr, withReg_of_none hr, hpc]; exact hfault _
  | some r => rw [withReg_of_some hr, withReg_of_some hr]; exact hact r hr

/-- The same for two register operands. -/
theorem withRegs_rel {P : State → State → Prop} {op : Opcode} {d i : Byte} {s s' : State}
    {act act' : Reg → Reg → State → State} (hpc : s'.pc = s.pc)
    (hfault : ∀ e, P ((s.advance op.length).raise e) ((s'.advance op.length).raise e))
    (hact : ∀ r q, regOfIndex d = some r → regOfIndex i = some q →
      P (act r q (s.advance op.length)) (act' r q (s'.advance op.length))) :
    P (withRegs op d i s act) (withRegs op d i s' act') := by
  refine withReg_rel hpc hfault fun r hr => ?_
  cases hq : regOfIndex i with
  | none => dsimp only; rw [hpc]; exact hfault _
  | some q => exact hact r q hr hq

/-- The same for a load from an address. -/
theorem withLoad_rel {P : State → State → Prop} {op : Opcode} {addr : Addr} {s s' : State} {act : Byte → State → State}
    (hfault : ∀ e, P ((s.advance op.length).raise e) ((s'.advance op.length).raise e))
    (hact : P (act (s.dataByte addr.toNat) (s.advance op.length)) (act (s'.dataByte addr.toNat) (s'.advance op.length))) :
    P (withLoad op addr s act) (withLoad op addr s' act) := by
  rcases Nat.lt_or_ge addr.toNat 4096 with h | h
  · rw [withLoad_inBounds op addr s act h, withLoad_inBounds op addr s' act h]
    exact hact
  · rw [withLoad_outOfBounds op addr s act h, withLoad_outOfBounds op addr s' act h]
    exact hfault _

/-- A relation between states that every update of the machine keeps, made alike on both sides. -/
structure Congruent (R : State → State → Prop) : Prop where
  pc {s s' : State} : R s s' → s'.pc = s.pc
  advance {s s' : State} (n : Nat) : R s s' → R (s.advance n) (s'.advance n)
  raise {s s' : State} (e : FaultEvent) : R s s' → R (s.raise e) (s'.raise e)
  halt {s s' : State} (st : Status) : R s s' → R (s.halt st) (s'.halt st)
  jumpTo {s s' : State} (a : Addr) : R s s' → R (s.jumpTo a) (s'.jumpTo a)
  set {s s' : State} (r : Reg) (v : Byte) : R s s' → R (s.set r v) (s'.set r v)
  setFlags {s s' : State} (f : Flags) : R s s' → R (s.setFlags f) (s'.setFlags f)
  store {s s' : State} (a : Nat) (v : Byte) : R s s' →
    R { s with data := Memory.write config.initData s.data a v } { s' with data := Memory.write config.initData s'.data a v }

/-- Arithmetic from equal operands. -/
theorem Congruent.rel_arith {R : State → State → Prop} (hR : Congruent R) {s s' : State} (h : R s s')
    (f : ArithOp → Byte → Byte → Flags) (op : ArithOp) (d : Reg) (x : Byte) (hd : s'.get d = s.get d) :
    R (arith f op d x s) (arith f op d x s') := by
  rw [arith_spec, arith_spec, hd]
  exact hR.set _ _ (hR.setFlags _ h)

/-- A store of equal registers. -/
theorem Congruent.rel_storeByte {R : State → State → Prop} (hR : Congruent R) {s s' : State} (h : R s s') (op : Opcode)
    (addr : Addr) {v v' : Byte} (hv : v' = v) : R (storeByte op addr v s) (storeByte op addr v' s') := by
  subst hv
  rcases storeByte_spec op addr v' s with ⟨h1, hs⟩ | ⟨h1, hs⟩ <;>
    rcases storeByte_spec op addr v' s' with ⟨h2, hs'⟩ | ⟨h2, hs'⟩ <;> rw [hs, hs']
  · exact hR.store addr.toNat v' (hR.advance _ h)
  · omega
  · omega
  · exact hR.raise _ (hR.advance _ h)

/-- A jump on equal conditions. -/
theorem Congruent.rel_jumpIf {R : State → State → Prop} (hR : Congruent R) {s s' : State} (h : R s s') (op : Opcode)
    {taken taken' : Bool} (htaken : taken' = taken) (a : Addr) : R (jumpIf op taken a s) (jumpIf op taken' a s') := by
  subst htaken
  cases taken'
  · exact hR.advance _ h
  · exact hR.jumpTo a h

/-- An instruction leads related states that agree on what is in its "reads" columns to related states. -/
theorem Congruent.rel_exec {R : State → State → Prop} (hR : Congruent R) (i : Instr) {s s' : State} (h : R s s')
    (hreg : ∀ q ∈ regsRead i, s'.get q = s.get q) (hflags : readsFlags i = true → s'.flags = s.flags)
    (hdata : ∀ a, loadAddr i = some a → s'.dataByte a.toNat = s.dataByte a.toNat) (t t' : State)
    (ht : exec i s = .next t) (ht' : exec i s' = .next t') : R t t' := by
  have hpc := hR.pc h
  have hadvance := fun n => hR.advance n h
  have hfault := fun n e => hR.raise e (hadvance n)
  cases i <;> cases ht <;> cases ht'
  case nop => exact hR.halt _ (hadvance _)
  case fill => exact hadvance _
  case ldaImm | ldbImm | ldcImm => exact hR.set _ _ (hadvance _)
  case cp =>
    rw [hreg .a List.mem_cons_self]
    exact hR.setFlags _ (hadvance _)
  case ldaReg | ldbReg | ldcReg | notR =>
    refine withReg_rel hpc (hfault _) fun r hr => ?_
    rw [State.advance_get, State.advance_get, hreg r (Option.mem_toList.2 hr)]
    exact hR.set _ _ (hadvance _)
  case addRi | subRi =>
    exact withReg_rel hpc (hfault _) fun r hr => hR.rel_arith (hadvance _) _ _ _ _ (by simpa using hreg r (by simpa [regsRead]))
  case addRr | subRr =>
    refine withRegs_rel hpc (hfault _) fun r q hr hq => ?_
    rw [State.advance_get, State.advance_get, hreg q (by simp [regsRead, hq])]
    exact hR.rel_arith (hadvance _) _ _ _ _ (by simpa using hreg r (by simp [regsRead, hr]))
  case andRr | orRr | xorRr =>
    refine withRegs_rel hpc (hfault _) fun r q hr hq => ?_
    simp only [State.advance_get]
    rw [hreg r (by simp [regsRead, hr]), hreg q (by simp [regsRead, hq])]
    exact hR.set _ _ (hadvance _)
  case sta | stb | stc => exact hR.rel_storeByte h _ _ (hreg _ List.mem_cons_self)
  case ldaAddr a =>
    refine withLoad_rel (hfault _) ?_
    rw [hdata a rfl]
    exact hR.set _ _ (hadvance _)
  case jmp => exact hR.rel_jumpIf h _ rfl _
  case jmpZ | jmpC | jmpNz | jmpNc => exact hR.rel_jumpIf h _ (by rw [hflags rfl]) _

/-- The later of two writes to a register is the one that lasts. -/
theorem State.set_set (s : State) (r : Reg) (v w : Byte) : (s.set r v).set r w = s.set r w := by
  cases r <;> rfl

/-- Writes to two registers can be made in either order. -/
theorem State.set_comm (s : State) {r q : Reg} (h : q ≠ r) (v w : Byte) :
    (s.set r v).set q w = (s.set q w).set r v := by
  refine State.ext_get (fun p => ?_) (by simp) (by simp) (by simp) (by simp) (by simp) (by simp)
  simp only [State.get_set]
  split_ifs with hq hr
  · exact absurd (hq.symm.trans hr) h
  all_goals rfl

/-- Two states that may differ in one register. -/
theorem congruent_set (r : Reg) : Congruent fun s s' => ∃ v, s' = s.set r v where
  pc := fun ⟨v, h⟩ => by simp [h]
  advance n := fun ⟨v, h⟩ => ⟨v, by subst h; cases r <;> rfl⟩
  raise e := fun ⟨v, h⟩ => ⟨v, by subst h; cases r <;> rfl⟩
  halt st := fun ⟨v, h⟩ => ⟨v, by subst h; cases r <;> rfl⟩
  jumpTo a := fun ⟨v, h⟩ => ⟨v, by subst h; cases r <;> rfl⟩
  setFlags f := fun ⟨v, h⟩ => ⟨v, by subst h; cases r <;> rfl⟩
  store a w := fun ⟨v, h⟩ => ⟨v, by subst h; cases r <;> rfl⟩
  set q w := fun ⟨v, h⟩ => by
    by_cases hq : q = r
    · exact ⟨w, by rw [h, hq, State.set_set, State.set_set]⟩
    · exact ⟨v, by rw [h, State.set_comm _ hq]⟩

/-- Two states that may differ in the flags. -/
theorem congruent_setFlags : Congruent fun s s' => ∃ f, s' = s.setFlags f where
  pc := fun ⟨f, h⟩ => h ▸ rfl
  advance n := fun ⟨f, h⟩ => ⟨f, h ▸ rfl⟩
  raise e := fun ⟨f, h⟩ => ⟨f, h ▸ rfl⟩
  halt st := fun ⟨f, h⟩ => ⟨f, h ▸ rfl⟩
  jumpTo a := fun ⟨f, h⟩ => ⟨f, h ▸ rfl⟩
  set q w := fun ⟨f, h⟩ => ⟨f, by subst h; cases q <;> rfl⟩
  setFlags g := fun ⟨f, h⟩ => ⟨g, h ▸ rfl⟩
  store a w := fun ⟨f, h⟩ => ⟨f, h ▸ rfl⟩

/-- Two states that may differ in the data store. -/
theorem congruent_data : Congruent fun s s' => ∃ m, s' = { s with data := m } where
  pc := fun ⟨m, h⟩ => h ▸ rfl
  advance n := fun ⟨m, h⟩ => ⟨m, h ▸ rfl⟩
  raise e := fun ⟨m, h⟩ => ⟨m, h ▸ rfl⟩
  halt st := fun ⟨m, h⟩ => ⟨m, h ▸ rfl⟩
  jumpTo a := fun ⟨m, h⟩ => ⟨m, h ▸ rfl⟩
  set q w := fun ⟨m, h⟩ => ⟨m, by subst h; cases q <;> rfl⟩
  setFlags g := fun ⟨m, h⟩ => ⟨m, h ▸ rfl⟩
  store a w := fun ⟨m, h⟩ => ⟨Memory.write config.initData m a w, h ▸ rfl⟩

/-- Two states the second of which has the program store `m`. -/
theorem congruent_prog (m : Memory) : Congruent fun s s' => s' = { s with prog := m } where
  pc := fun h => h ▸ rfl
  advance n := fun h => h ▸ rfl
  raise e := fun h => h ▸ rfl
  halt st := fun h => h ▸ rfl
  jumpTo a := fun h => h ▸ rfl
  set q w := fun h => by subst h; cases q <;> rfl
  setFlags g := fun h => h ▸ rfl
  store a w := fun h => h ▸ rfl

/-- Two outcomes that agree in one respect where the first is no fault. -/
def AgreeUnlessFault {α : Type} (φ : State → α) (t t' : State) : Prop := t.status.isFault = false → φ t' = φ t

/-- A fault is no claim on the other outcome. -/
theorem agreeUnlessFault_raise {α : Type} (φ : State → α) (s t' : State) (e : FaultEvent) :
    AgreeUnlessFault φ (s.raise e) t' := by
  intro h
  rw [State.raise_status, FaultEvent.status_isFault] at h
  cases h

/-- A register written but not read, as the loads alone have one, gets a value that does not depend on what it held. -/
theorem exec_get_of_written_not_read (i : Instr) (s t t' : State) (r : Reg) (v : Byte) (hread : r ∉ regsRead i)
    (hwritten : r ∈ regsWritten i) (ht : exec i s = .next t) (ht' : exec i (s.set r v) = .next t') :
    AgreeUnlessFault (State.get · r) t t' := by
  cases i <;> cases ht <;> cases ht'
  case ldaImm | ldbImm | ldcImm =>
    obtain rfl := List.mem_singleton.1 hwritten
    exact fun _ => rfl
  case ldaReg src | ldbReg src | ldcReg src =>
    have hother {q : Reg} (hq : regOfIndex src = some q) : q ≠ r := fun heq => hread (heq ▸ Option.mem_toList.2 hq)
    obtain rfl := List.mem_singleton.1 hwritten
    refine withReg_rel rfl (fun e => agreeUnlessFault_raise _ _ _ e) fun q hq _ => ?_
    simp only [State.get_set_self, State.advance_get, State.get_set, if_neg (hother hq)]
  case ldaAddr =>
    obtain rfl := List.mem_singleton.1 hwritten
    exact withLoad_rel (fun e => agreeUnlessFault_raise _ _ _ e) fun _ => rfl
  case addRi | subRi | notR => exact absurd hwritten hread
  case addRr | subRr | andRr | orRr | xorRr => exact absurd (List.mem_append_left _ hwritten) hread
  all_goals cases hwritten

/-- Settles O25: `Writes` has no register outside the column, and a register that is not read stays the only
difference, if it stays one. -/
theorem registerReadAndWriteTableIsExhaustive : Obligations.RegisterReadAndWriteTableIsExhaustive := by
  refine ⟨exec_get_of_not_mem_regsWritten, fun i s t t' r v hread ht ht' => ?_⟩
  have hkept {q : Reg} (hq : q ∈ regsRead i) : (s.set r v).get q = s.get q := by
    rw [State.get_set, if_neg fun heq : q = r => hread (heq ▸ hq)]
  have hwritten := fun hw => exec_get_of_written_not_read i s t t' r v hread hw ht ht'
  obtain ⟨w, rfl⟩ := (congruent_set r).rel_exec i ⟨v, rfl⟩ (fun q hq => hkept hq) (fun _ => s.set_flags r v)
    (fun a _ => congrArg (Memory.read config.initData · a.toNat) (s.set_data r v)) t t' ht ht'
  exact ⟨by simp, by simp, by simp, by simp, by simp, by simp, fun q hq => by rw [State.get_set, if_neg hq], hwritten⟩

/-- The flags an instruction writes do not depend on what they were. -/
theorem exec_flags_of_writesFlags (i : Instr) (s t t' : State) (f : Flags) (hwritten : writesFlags i = true)
    (ht : exec i s = .next t) (ht' : exec i (s.setFlags f) = .next t') : AgreeUnlessFault State.flags t t' := by
  cases i
  case cp => cases ht; cases ht'; exact fun _ => rfl
  case addRi | subRi =>
    cases ht; cases ht'
    refine withReg_rel rfl (fun e => agreeUnlessFault_raise _ _ _ e) fun r _ _ => ?_
    simp [arith_spec]
  case addRr | subRr =>
    cases ht; cases ht'
    refine withRegs_rel rfl (fun e => agreeUnlessFault_raise _ _ _ e) fun r q _ _ _ => ?_
    simp [arith_spec]
  all_goals cases hwritten

/-- Settles O26: `Writes` has flags for the writers alone, and flags that are not read stay the only difference, if
they stay one. -/
theorem flagReadersAndWritersAreExhaustive : Obligations.FlagReadersAndWritersAreExhaustive := by
  refine ⟨exec_flags_of_not_writesFlags, fun i s t t' f hread ht ht' => ?_⟩
  have hwritten := fun hw => exec_flags_of_writesFlags i s t t' f hw ht ht'
  obtain ⟨g, rfl⟩ := congruent_setFlags.rel_exec i ⟨f, rfl⟩ (fun q _ => s.setFlags_get f q)
    (fun hr => by rw [hread] at hr; cases hr) (fun _ _ => rfl) t t' ht ht'
  exact ⟨rfl, hwritten⟩

/-- Another data store makes no other difference to an instruction that loads from none (R41). -/
theorem exec_of_other_data (i : Instr) (s t t' : State) (m : Memory) (hi : loadAddr i = none) (ht : exec i s = .next t)
    (ht' : exec i { s with data := m } = .next t') : { t' with data := t.data } = t := by
  obtain ⟨m', rfl⟩ := congruent_data.rel_exec i ⟨m, rfl⟩ (fun q _ => by cases q <;> rfl) (fun _ => rfl)
    (fun a ha => by rw [hi] at ha; cases ha) t t' ht ht'
  rfl

/-- Another program store makes no other difference to an instruction. -/
theorem exec_of_other_prog (i : Instr) (s t : State) (m : Memory) (ht : exec i s = .next t) :
    exec i { s with prog := m } = .next { t with prog := m } := by
  obtain ⟨t', ht'⟩ := exec_total i { s with prog := m }
  obtain rfl := (congruent_prog m).rel_exec i rfl (fun q _ => by cases q <;> rfl) (fun _ => rfl) (fun _ _ => rfl) t t' ht ht'
  exact ht'

/-- Another program store that gives the same bytes at `pc` makes no other difference to a step (R41). -/
theorem step_of_other_prog (s t : State) (m : Memory) (hwindow : ({ s with prog := m } : State).window = s.window)
    (h : step s = .next t) : step { s with prog := m } = .next { t with prog := m } := by
  by_cases hs : s.status = .running
  · rcases step_running s hs with ⟨hd, hst⟩ | ⟨op, hd, hst⟩ | ⟨op, hd, hst⟩ | ⟨i, rest, hd, hst⟩ <;> rw [hst] at h
    case inl => cases h; exact step_of_pc_end { s with prog := m } hs (pc_end_of_decode_noOpcode s hd)
    all_goals rw [← hwindow] at hd
    case inr.inl => cases h; exact step_of_decode_illegal { s with prog := m } op hs hd
    case inr.inr.inl =>
      cases h
      rw [step_of_decode_missingOperand { s with prog := m } op hs hd, hwindow]
      rfl
    case inr.inr.inr => rw [step_of_decode_instr { s with prog := m } i rest hs hd, exec_of_other_prog i s t m h]
  · rw [step_stopped s hs] at h
    cases h
    exact step_stopped { s with prog := m } hs

/-- Settles O27: the byte a store writes; what loads from no data store does not see it; no step writes the program
store or sees more of it than its window. -/
theorem storeAccessesAreExhaustive : Obligations.StoreAccessesAreExhaustive :=
  ⟨exec_dataByte, exec_of_other_data, step_prog, step_of_other_prog⟩

/-- Settles O36: the store puts the byte there, an instruction that does not store there leaves it, and the load reads
it. -/
theorem loadAnswersTheLastStoredByte : Obligations.LoadAnswersTheLastStoredByte := by
  intro addr s t u v i hwf haddr hstore hexec hother hload
  have hstored : t.dataByte addr.toNat = s.a := by
    have hbyte := exec_dataByte (.sta addr) s t hwf hstore addr.toNat haddr
    simpa [storeOf] using hbyte
  have hkept : u.dataByte addr.toNat = t.dataByte addr.toNat := by
    have hbyte := exec_dataByte i t u (exec_keeps_wf _ s t hwf hstore) hexec addr.toNat haddr
    cases hi : storeOf i with
    | none => rwa [hi] at hbyte
    | some x =>
      have hne : x.1.toNat ≠ addr.toNat := fun heq => hother x hi (BitVec.eq_of_toNat_eq heq)
      simpa [hi, hne] using hbyte
  have hloaded : v.a = u.dataByte addr.toNat := by
    rw [exec_ldaAddr_inBounds addr u haddr] at hload
    cases hload
    rfl
  exact hloaded.trans (hkept.trans hstored)

end Sys2Proof.Machine
end

section
/-! Reset and the host (spec/70_reset_and_hazards.md): the reset values (R34), a whole image loaded and reset (R260 to
R264), the moves of a host (R266, R268), and the data cells it observes (R267). -/

namespace Sys2Proof.Machine

/-- Settles O51: each value is its definition's, and an empty store reads as its fill. -/
theorem resetStateHasTheResetValues : Obligations.ResetStateHasTheResetValues :=
  ⟨rfl, fun r => by cases r <;> rfl, rfl, rfl, rfl, Memory.read_nil config.initData⟩

/-- Writing bytes at rising addresses leaves every address past the last as it was, whatever the form of the list. -/
theorem Memory.read_writeAll_above (fill : Byte) (vs : List Byte) (m : Memory) (a x : Nat) (h : a + vs.length ≤ x) :
    Memory.read fill (Memory.writeAll fill m a vs) x = Memory.read fill m x := by
  induction vs generalizing m a with
  | nil => rfl
  | cons v vs ih =>
    rw [List.length_cons] at h
    calc Memory.read fill (Memory.writeAll fill (Memory.write fill m a v) (a + 1) vs) x
      _ = Memory.read fill (Memory.write fill m a v) x := ih _ _ (by omega)
      _ = Memory.read fill m x := Memory.read_write_other fill m a x v (by omega)

/-- Past the image the loaded program store reads as fill (R263). -/
theorem read_progOfImage_above (image : List Byte) (x : Nat) (h : image.length ≤ x) :
    Memory.read config.progFill (progOfImage image) x = 0x00 :=
  Memory.read_writeAll_above config.progFill image [] 0 x (by omega)

/-- The loaded program store is canonical. -/
theorem wf_progOfImage (image : List Byte) (h : image.length ≤ 4096) :
    Memory.wf config.progSize config.progFill (progOfImage image) :=
  Memory.wf_writeAll _ _ image [] 0 (Memory.wf_nil _ _) (by rw [config_progSize]; omega)

/-- Settles O52: an accepted image stands in the store with fill after it, and a longer one is refused. -/
theorem resetWithImageLoadsItAtZero : Obligations.ResetWithImageLoadsItAtZero :=
  ⟨fun image hlen => ⟨_, (resetWith_eq_next image _).2 ⟨hlen, rfl⟩, ⟨wf_progOfImage image hlen, Memory.wf_nil _ _⟩,
      read_progOfImage image hlen, read_progOfImage_above image, rfl⟩,
    fun _ hlen => if_pos hlen⟩

/-- Settles O54: a Running core takes no load and no reset; a stopped one takes the load of an image that fits, and a
reset that keeps what was loaded. -/
theorem hostMovesOnlyAStoppedCore : Obligations.HostMovesOnlyAStoppedCore := by
  refine ⟨fun s image hs => ⟨if_pos hs, if_pos hs⟩, fun _ => rfl, fun s image hs hlen => ?_, fun s hs => if_neg hs⟩
  have hload : hostMove (.load image) s = .next { s with prog := progOfImage image } :=
    (if_neg hs).trans (if_neg (Nat.not_lt.2 hlen))
  exact ⟨_, hload, rfl, read_progOfImage image hlen, read_progOfImage_above image⟩

/-- The listed cells of a canonical store are those that do not read as fill. -/
theorem Memory.mem_iff (size : Nat) (fill : Byte) (m : Memory) (hm : Memory.wf size fill m) (a : Nat) (v : Byte) :
    (a, v) ∈ m ↔ Memory.read fill m a = v ∧ v ≠ fill := by
  induction m with
  | nil => exact ⟨fun h => absurd h List.not_mem_nil, fun ⟨hv, hne⟩ => absurd hv.symm hne⟩
  | cons p m ih =>
    obtain ⟨k, w⟩ := p
    obtain ⟨hp, hc⟩ := hm
    obtain ⟨hk, hp⟩ := List.pairwise_cons.1 hp
    obtain ⟨hhead, htail⟩ := List.forall_mem_cons.1 hc
    by_cases hka : k = a
    · have hfresh : (a, v) ∉ m := fun hmem => (hk _ hmem).ne hka
      simp only [Memory.read, if_pos hka, List.mem_cons, Prod.mk.injEq, hfresh, or_false]
      exact ⟨fun ⟨_, hv⟩ => ⟨hv.symm, hv ▸ hhead.2⟩, fun ⟨hv, _⟩ => ⟨hka.symm, hv.symm⟩⟩
    · simp only [Memory.read, if_neg hka, List.mem_cons, Prod.mk.injEq, Ne.symm hka, false_and, false_or]
      exact ih ⟨hp, htail⟩

/-- A canonical store reads as fill from its size up. -/
theorem Memory.read_eq_fill_of_le (size : Nat) (fill : Byte) (m : Memory) (hm : Memory.wf size fill m) (a : Nat)
    (h : size ≤ a) : Memory.read fill m a = fill := by
  by_contra hne
  have hmem : (a, Memory.read fill m a) ∈ m := (Memory.mem_iff size fill m hm a _).2 ⟨rfl, hne⟩
  exact absurd (hm.2 _ hmem).1 (Nat.not_lt.2 h)

/-- Two lists of cells with strictly rising addresses and the same cells are the same list. -/
theorem cells_eq_of_mem_iff {xs ys : List Host.Cell} (hx : xs.Pairwise fun x y => x.1 < y.1)
    (hy : ys.Pairwise fun x y => x.1 < y.1) (h : ∀ p, p ∈ xs ↔ p ∈ ys) : xs = ys := by
  have hnodup {zs : List Host.Cell} (hz : zs.Pairwise fun x y => x.1 < y.1) : zs.Nodup :=
    hz.imp fun hlt heq => absurd (congrArg Prod.fst heq) hlt.ne
  exact ((List.perm_ext_iff_of_nodup (hnodup hx) (hnodup hy)).2 h).eq_of_pairwise
    (fun _ _ _ _ hlt hgt => absurd hgt hlt.not_gt) hx hy

/-- The cells a host observes have strictly rising addresses. -/
theorem State.pairwise_nonZeroCells (s : State) : s.nonZeroCells.Pairwise fun x y => x.1 < y.1 := by
  rw [State.nonZeroCells]
  refine List.Pairwise.filter _ (List.pairwise_map.2 ?_)
  exact List.pairwise_lt_range

/-- A cell a host observes: a non-zero byte inside the data store (R267). -/
theorem State.mem_nonZeroCells (s : State) (a : Nat) (v : Byte) :
    (a, v) ∈ s.nonZeroCells ↔ a < 4096 ∧ s.dataByte a = v ∧ v ≠ 0 := by
  simp [State.nonZeroCells, and_assoc]

/-- Settles O55: both lists have strictly rising addresses, and both list the cells that are not zero. -/
theorem nonZeroCellsAreTheListedCells : Obligations.NonZeroCellsAreTheListedCells := by
  rintro s ⟨-, hdata⟩
  refine cells_eq_of_mem_iff s.pairwise_nonZeroCells hdata.1 fun ⟨a, v⟩ => ?_
  rw [s.mem_nonZeroCells, Memory.mem_iff config.dataSize config.initData s.data hdata]
  refine ⟨And.right, fun ⟨hread, hne⟩ => ⟨?_, hread, hne⟩⟩
  by_contra hlarge
  have hfill := Memory.read_eq_fill_of_le config.dataSize config.initData s.data hdata a (Nat.not_lt.1 hlarge)
  exact hne (hread.symm.trans hfill)

end Sys2Proof.Machine
end
